-- ==== Sys2Proof/Word.lean ====
section
/-! DEFINITION. The value types of 00_scope.md rule R9: byte, u16 and u32. Every number of the unit is unsigned (R8). -/

namespace Sys2Proof

/-- An 8-bit value; as a field element it is the spec's `gf` (R9). -/
abbrev Byte := BitVec 8

/-- The spec's `u16` (R9). -/
abbrev Half := BitVec 16

/-- The spec's `u32` (R9): a register, a command word, bus data. -/
abbrev Word := BitVec 32

end Sys2Proof
end

