-- ==== Sys2Proof/Machine/Field.lean ====
section
/-! DEFINITION. The field functions of 40_field.md section 1 (rules R110 to R115): GF(2^8) under x^8+x^4+x^3+x+1. -/

namespace Sys2Proof.Machine

/-- Multiplication by x (0x02): shift left in 9 bits, XOR 0x11B when bit 8 is set (40_field.md rule R110). -/
def xtime (a : Byte) : Byte :=
  let t : BitVec 9 := (a.setWidth 9) <<< 1
  (if t.getLsbD 8 then t ^^^ 0x11B#9 else t).setWidth 8

/-- One pass of the loop of 40_field.md rule R111 on (acc, a): add `a` when bit `i` of `b` is set, then shift `a`. -/
def gmulPass (b : Byte) (p : Byte × Byte) (i : Nat) : Byte × Byte :=
  (if b.getLsbD i then p.1 ^^^ p.2 else p.1, xtime p.2)

/-- Field multiplication: the passes i = 0..7, low bit of `b` first (40_field.md rule R111). -/
def gmul (a b : Byte) : Byte := ((List.range 8).foldl (gmulPass b) (0x00#8, a)).1

/-- Field addition (40_field.md rule R112). -/
def gadd (a b : Byte) : Byte := a ^^^ b

/-- Field subtraction (40_field.md rule R112). -/
def gsub (a b : Byte) : Byte := a ^^^ b

/-- Powers (40_field.md rule R113). -/
def gpow (a : Byte) : Nat → Byte
  | 0 => 0x01#8
  | e + 1 => gmul (gpow a e) a

/-- Multiplicative inverse: a^254 "via repeated squaring using `mul`" (40_field.md rule R114; only the value is the contract,
R124; log 9). "ginv(0) is not defined", and no rule applies it (log 10). -/
def ginv (a : Byte) : Byte :=
  let a2 := gmul a a
  let a4 := gmul a2 a2
  let a8 := gmul a4 a4
  let a16 := gmul a8 a8
  let a32 := gmul a16 a16
  let a64 := gmul a32 a32
  let a128 := gmul a64 a64
  gmul a128 (gmul a64 (gmul a32 (gmul a16 (gmul a8 (gmul a4 a2)))))

/-- Division: gmul(a, ginv(b)) (40_field.md rule R115). "gdiv(a, 0) is not defined", and no rule applies it (log 10). -/
def gdiv (a b : Byte) : Byte := gmul a (ginv b)

end Sys2Proof.Machine
end

