-- ==== Sys2Proof/Syntax.lean ====
section
/-! DEFINITION. The command set GFSSU-CMD (00_scope.md rule R3): one constructor per row of spec/opcode_table.json. A command
word carries no operand and no immediate (30_encoding.md rule R94), so no constructor has an argument. -/

namespace Sys2Proof

/-- The ten commands, in the order of 30_encoding.md rule R92. -/
inductive Instr where
  /-- ADD, 40_field.md rule R116. -/
  | add
  /-- SUB, 40_field.md rule R117. -/
  | sub
  /-- MUL, 40_field.md rule R118. -/
  | mul
  /-- DIV, 40_field.md rule R119. -/
  | div
  /-- INV, 40_field.md rule R120. -/
  | inv
  /-- EVAL, 41_polynomial.md rule R143. -/
  | eval
  /-- INTERP0, 41_polynomial.md rule R145. -/
  | interp0
  /-- SPLIT, 42_sharing.md rule R160. -/
  | split
  /-- COMBINE, 42_sharing.md rule R166. -/
  | combine
  /-- ZEROIZE, 42_sharing.md rule R170. -/
  | zeroize
  deriving DecidableEq, Repr

end Sys2Proof
end

