-- ==== Sys2Proof/Decode.lean ====
section
/-! DEFINITION. Decoding a command word and encoding a command (30_encoding.md rules R90 to R93, R99 and R100). There is one
format, CMD32, of one 32-bit word: OPC in bits [7:0], RSVD in bits [31:8]. -/

namespace Sys2Proof

/-- Why a word selects no command (30_encoding.md rule R93). -/
inductive IllegalWord where
  /-- RSVD is not 0, whatever OPC is. -/
  | rsvdNonzero
  /-- OPC is 0x00 or one of 0x0B to 0xFF. -/
  | opcUnassigned
  deriving DecidableEq, Repr

/-- What a word decodes to: "exactly one of the ten commands or ILLEGAL" (30_encoding.md rule R100). -/
inductive Decoded where
  | command (i : Instr)
  | illegal (why : IllegalWord)
  deriving DecidableEq, Repr

/-- OPC, bits [7:0] (R90). -/
def opcOf (w : Word) : Byte := w.extractLsb' 0 8

/-- RSVD, bits [31:8] (R90). -/
def rsvdOf (w : Word) : BitVec 24 := w.extractLsb' 8 24

/-- The opcode map of 30_encoding.md rule R92. -/
def decodeOpc (opc : Byte) : Option Instr :=
  match opc with
  | 0x01#8 => some .add
  | 0x02#8 => some .sub
  | 0x03#8 => some .mul
  | 0x04#8 => some .div
  | 0x05#8 => some .inv
  | 0x06#8 => some .eval
  | 0x07#8 => some .interp0
  | 0x08#8 => some .split
  | 0x09#8 => some .combine
  | 0x0A#8 => some .zeroize
  | _ => none

/-- The decoder: RSVD first, then OPC, as Dispatch reads them (30_encoding.md rule R99). Total on every word (R100). -/
def decode (w : Word) : Decoded :=
  if rsvdOf w = 0#24 then
    match decodeOpc (opcOf w) with
    | some i => .command i
    | none => .illegal .opcUnassigned
  else .illegal .rsvdNonzero

/-- OPC of a command (30_encoding.md rule R92). -/
def opcode : Instr → Byte
  | .add => 0x01#8
  | .sub => 0x02#8
  | .mul => 0x03#8
  | .div => 0x04#8
  | .inv => 0x05#8
  | .eval => 0x06#8
  | .interp0 => 0x07#8
  | .split => 0x08#8
  | .combine => 0x09#8
  | .zeroize => 0x0A#8

/-- The command word: RSVD = 0 above OPC (30_encoding.md rules R90 and R92). -/
def encode (i : Instr) : Word := (0#24 ++ opcode i : BitVec 32)

/-- The command the decoder reads from the word whose bits are `w`, numbered as spec/opcode_table.json numbers them. A command
is one 32-bit word (R91): a number that needs more bits is no command word. -/
def decodeTableWord (nbits w : Nat) : Option Instr :=
  if w % 2 ^ nbits < 2 ^ 32 then
    match decode (BitVec.ofNat 32 (w % 2 ^ nbits)) with
    | .command i => some i
    | .illegal _ => none
  else none

end Sys2Proof
end

