-- ==== Sys2Proof/Machine/Moves.lean ====
section
/-! DEFINITION. The moves of the four agents (10_state.md rule R20), and the order in which they move once no move is scheduled. -/

namespace Sys2Proof.Machine

/-- Which agent moves: the host does one line of its program, the engine its completion step, the platform asserts `rst`, or the
platform supplies one byte to the random-byte port. -/
inductive Move where
  | host
  | engine
  | rst
  | rng (b : Byte)
  deriving DecidableEq, Repr, Inhabited

/-- Who moves after the scheduled moves. The spec leaves the point of the completion step free, and allows that it is never
taken (30_encoding.md rule R97, 70_reset_and_hazards.md rule R261; log 1). -/
inductive Order where
  /-- The engine as soon as it can complete its command, else the host: the weakly fair order under which a WAIT ends. -/
  | engineFirst
  /-- The host, always: the completion step is never taken, and a WAIT loops for ever. -/
  | hostOnly
  /-- Any agent: each move is a free value, `Config.freeMove`. -/
  | free
  deriving DecidableEq, Repr

end Sys2Proof.Machine
end

