-- ==== Sys2Proof/Config.lean ====
section
/-! DEFINITION. What is fixed for the unit (00_scope.md rule R7) and the free values the spec leaves open. -/

namespace Sys2Proof.Config

/-- LMAX of the reference configuration (R7). The model keeps LMAX in State, so every statement can be made for every LMAX. -/
def referenceLmax : Nat := 1024

/-- The least LMAX (R7). -/
def lmaxLeast : Nat := 1

/-- The greatest LMAX (R7): LMAX + 1 still fits in a 16-bit length. -/
def lmaxGreatest : Nat := 65534

/-- FREE VALUE (20_memory.md rule R72, log 3): what a read returns that the spec leaves open while a command runs.
The k-th such read takes `busyRead k`. No body: nothing can be proved of it. -/
opaque busyRead : Nat → Word

/-- FREE VALUE (30_encoding.md rule R97, 70_reset_and_hazards.md rule R261, log 1): who makes the k-th move that a state leaves
free. Every infinite interleaving of the agents is such a function, the one that never moves the engine among them. -/
opaque freeMove : Nat → Machine.Move

end Sys2Proof.Config
end

