-- ==== Sys2Proof/Machine/HostNotation.lean ====
section
/-! DEFINITION. The host's own language (30_encoding.md rule R101): the lines of a host program, its variables and the bus
transactions it issues. These are no commands of the unit. Labels are numbers. -/

namespace Sys2Proof.Machine

/-- The host program's variables h0 to h7 (R101): not state of the unit. -/
inductive HostVar where
  | h0 | h1 | h2 | h3 | h4 | h5 | h6 | h7
  deriving DecidableEq, Repr

/-- The data operand of a write: an immediate or a variable (R101). -/
inductive HostVal where
  | imm (v : Word)
  | var (h : HostVar)
  deriving DecidableEq, Repr

/-- One line of a host program (R101). `n` is the access width in bytes, `off` a window offset, `l` a label. -/
inductive HostOp where
  /-- `W8`, `W16`, `W32 off, v` for n = 1, 2, 4. -/
  | write (n : Nat) (off : Word) (v : HostVal)
  /-- `R8`, `R16`, `R32 hN, off` for n = 1, 2, 4. -/
  | read (n : Nat) (h : HostVar) (off : Word)
  | andi (d m : HostVar) (imm : Word)
  | addi (d m : HostVar) (imm : Word)
  | shri (d m : HostVar) (k : Nat)
  | beqi (h : HostVar) (imm : Word) (l : Nat)
  | bnei (h : HostVar) (imm : Word) (l : Nat)
  | jump (l : Nat)
  | halt
  | label (l : Nat)
  deriving DecidableEq, Repr

/-- One bus transaction of the host (20_memory.md rule R60), at a window offset. -/
inductive Txn where
  | read (n : Nat) (off : Word)
  | write (n : Nat) (off : Word) (v : Word)
  deriving DecidableEq, Repr

end Sys2Proof.Machine
end

