-- ==== Sys2Proof/Machine/State.lean ====
section
/-! DEFINITION. The state of the GF256-SSS unit (10_state.md) with the outside agents the one step function needs (10_state.md
rule R20), and the two reasons a step can stop. Plain data throughout. -/

namespace Sys2Proof.Machine

/-- The command engine's phase (10_state.md rule R41). -/
inductive Phase where
  | idle
  | busy
  deriving DecidableEq, Repr

/-- The fields of STATUS (10_state.md rule R24); bits [7:3] and [31:24] are no storage and read 0. -/
structure Status where
  busy : Bool
  done : Bool
  errf : Bool
  err : Byte
  lastOpc : Byte
  deriving DecidableEq, Repr

/-- The registers of the register block (10_state.md rule R21). -/
inductive Reg where
  | id | ctrl | status | cmd | opa | opb | result | count | param | secretLen | errInfo | caps | reserved
  deriving DecidableEq, Repr

/-- The regions of the window (20_memory.md rule R61). -/
inductive Region where
  | regs | coef | pointX | pointY | shareLen | secret
  | slot (j : Nat)
  | unmapped
  deriving DecidableEq, Repr

/-- The buffers: (window offset, byte) in the canonical form of `memoryWf` (10_state.md rules R35 to R40). -/
abbrev Memory := List Host.Cell

/-- How the bus answers a transaction (20_memory.md rules R64 to R66). -/
inductive BusAnswer where
  | data (v : Word)
  | ok
  | busError
  deriving DecidableEq, Repr

/-- The host program's variables (30_encoding.md rule R101). -/
structure HostVars where
  h0 : Word
  h1 : Word
  h2 : Word
  h3 : Word
  h4 : Word
  h5 : Word
  h6 : Word
  h7 : Word
  deriving DecidableEq, Repr

/-- Whether the host program still runs (30_encoding.md rule R101: HALT ends it, a bus error stops it with outcome BUSERR). -/
inductive HostOutcome where
  | running
  | halted
  | buserr
  deriving DecidableEq, Repr

/-- The host: the agent that issues bus transactions (10_state.md rule R20). Its program is its own (R50), and no reset of the
unit reaches it. `last` is its last transaction with the bus's answer. -/
structure HostAgent where
  program : List HostOp
  line : Nat
  vars : HostVars
  outcome : HostOutcome
  last : Option (Txn × BusAnswer)
  deriving DecidableEq, Repr

/-- The whole state. The fields from `irqEn` to `mem` are the unit's (10_state.md); `lmax` and `base` are its parameters
(00_scope.md rule R7, 20_memory.md rule R61), which no step writes; the last six are the outside agents, their order and the
free-value counters (logs 1, 2, 3 and 6). -/
structure State where
  /-- LMAX (00_scope.md rule R7). -/
  lmax : Nat
  /-- BASE (20_memory.md rule R61). -/
  base : Word
  /-- CTRL.IRQ_EN (10_state.md rule R23). -/
  irqEn : Bool
  /-- STATUS (10_state.md rule R24). -/
  status : Status
  /-- PHASE (10_state.md rule R41). -/
  phase : Phase
  /-- CMD (10_state.md rule R25). -/
  cmd : Word
  /-- OPA.A (10_state.md rule R26). -/
  opa : Byte
  /-- OPB.B (10_state.md rule R27). -/
  opb : Byte
  /-- RESULT.R (10_state.md rule R28). -/
  result : Byte
  /-- COUNT.CNT (10_state.md rule R29). -/
  count : Byte
  /-- PARAM.K (10_state.md rule R30). -/
  paramK : Half
  /-- PARAM.N (10_state.md rule R30). -/
  paramN : Half
  /-- SECRET_LEN.L (10_state.md rule R31). -/
  secretLen : Half
  /-- ERR_INFO[15:0]: POS_A in [7:0], POS_B in [15:8] (10_state.md rule R32). -/
  errInfo : Half
  /-- COEF, POINT_X, POINT_Y, SHARE_LEN, SECRET and SLOT (10_state.md rules R35 to R40). -/
  mem : Memory
  /-- The bytes the random-byte port has been given and SPLIT has not drawn, first to be drawn first (10_state.md rule R44). -/
  port : List Byte
  /-- The host (30_encoding.md rule R101). -/
  host : HostAgent
  /-- Which agents move next (30_encoding.md rule R97: the order is free). -/
  schedule : List Move
  /-- Which agents move after those (70_reset_and_hazards.md rule R261). No step writes it. -/
  order : Order
  /-- How many moves have taken a free value (log 1). -/
  freeMoves : Nat
  /-- How many reads have taken a free value (20_memory.md rule R72). -/
  freeReads : Nat
  deriving DecidableEq, Repr

/-- Why a step stops with a fault. No command of the unit raises one. -/
inductive Fault where
  /-- A line of the host program branches to a label the program does not define (30_encoding.md rule R101 gives that no
  meaning). Raised by `hostJump`. Safe: the model stops where the spec says nothing. -/
  | undefinedLabel
  deriving DecidableEq, Repr

/-- Why a step is refused. -/
inductive Refusal where
  /-- An arm of `exec` that has no meaning yet, by its mnemonic. Raised by no arm of this model. Safe. -/
  | notModelled (mnemonic : String)
  deriving DecidableEq, Repr

/-- The outcome of a step. -/
abbrev Result := Host.Outcome State Fault Refusal

/-- The host's variables when a program starts: each 0x0000_0000 (30_encoding.md rule R101). -/
def HostVars.zero : HostVars := ⟨0#32, 0#32, 0#32, 0#32, 0#32, 0#32, 0#32, 0#32⟩

/-- A host with no program (DESIGN CHOICE, log 6). -/
def HostAgent.start : HostAgent := ⟨[], 0, HostVars.zero, .running, none⟩

/-- STATUS after reset: 0x0000_0000 (10_state.md rule R49). -/
def Status.zero : Status := ⟨false, false, false, 0x00#8, 0x00#8⟩

/-- The machine right after reset: every unit field as 10_state.md rule R49 says; the parameters of the reference configuration
(logs 4 and 5); no program, no random byte, no schedule, and the fair order after it (logs 1, 2, 3 and 6). -/
def State.reset : State where
  lmax := Config.referenceLmax
  base := 0x00000000#32
  irqEn := false
  status := Status.zero
  phase := .idle
  cmd := 0x00000000#32
  opa := 0x00#8
  opb := 0x00#8
  result := 0x00#8
  count := 0x00#8
  paramK := 0x0000#16
  paramN := 0x0000#16
  secretLen := 0x0000#16
  errInfo := 0x0000#16
  mem := []
  port := []
  host := HostAgent.start
  schedule := []
  order := .engineFirst
  freeMoves := 0
  freeReads := 0

end Sys2Proof.Machine
end

