-- ==== Sys2Proof/Machine/Flags.lean ====
section
/-! DEFINITION. The error codes (60_exceptions.md rule R200), the STATUS word and its flags (10_state.md rules R24 and R48) and
the interrupt line (R45). The unit has no condition codes (R48). -/

namespace Sys2Proof.Machine

/-- The error codes of 60_exceptions.md rule R200, by name. -/
inductive ErrorCode where
  | ok | illegalCmd
  | splitEmpty | splitKLt2 | splitNLtK | splitNGt255 | splitTooLong
  | tooFew | lenMismatch | shareTooShort | shareTooLong | zeroIndex | dupIndex
  | invZero | divZero
  deriving DecidableEq, Repr

/-- The numeric code in STATUS.ERR (60_exceptions.md rule R200). -/
def errorByte : ErrorCode → Byte
  | .ok => 0x00#8
  | .illegalCmd => 0x01#8
  | .splitEmpty => 0x10#8
  | .splitKLt2 => 0x11#8
  | .splitNLtK => 0x12#8
  | .splitNGt255 => 0x13#8
  | .splitTooLong => 0x14#8
  | .tooFew => 0x20#8
  | .lenMismatch => 0x21#8
  | .shareTooShort => 0x22#8
  | .shareTooLong => 0x23#8
  | .zeroIndex => 0x24#8
  | .dupIndex => 0x25#8
  | .invZero => 0x30#8
  | .divZero => 0x31#8

/-- STATUS.ERRF at a completion: (code ≠ 0x00) (30_encoding.md rule R98). -/
def errfOf (code : Byte) : Bool := code != 0x00#8

/-- STATUS as a completion leaves it (30_encoding.md rule R98): BUSY 0, DONE 1, the code, its flag and CMD[7:0]. -/
def completedStatus (code opc : Byte) : Status where
  busy := false
  done := true
  errf := errfOf code
  err := code
  lastOpc := opc

/-- STATUS as the acceptance of a command leaves it (30_encoding.md rule R96): DONE 0, BUSY 1; ERR, ERRF and LAST_OPC stay. -/
def acceptedStatus (st : Status) : Status := { st with busy := true, done := false }

/-- STATUS as one 32-bit word (10_state.md rule R24). -/
def statusWord (st : Status) : Word :=
  (0x00#8 ++ st.lastOpc ++ st.err ++ 0#5 ++ BitVec.ofBool st.errf ++ BitVec.ofBool st.done ++ BitVec.ofBool st.busy : BitVec 32)

/-- CTRL as one 32-bit word: SOFT_RESET and the reserved bits read 0 (10_state.md rule R23). -/
def ctrlWord (irqEn : Bool) : Word := (0#31 ++ BitVec.ofBool irqEn : BitVec 32)

/-- The interrupt output: irq = STATUS.DONE AND CTRL.IRQ_EN (10_state.md rule R45, 60_exceptions.md rule R210). -/
def irq (s : State) : Bool := s.status.done && s.irqEn

/-- ERR_INFO naming one position: POS_A = j, POS_B = 0 (60_exceptions.md rule R202). -/
def posInfo (j : Nat) : Half := (0x00#8 ++ BitVec.ofNat 8 j : BitVec 16)

/-- ERR_INFO naming two positions: POS_A = j, POS_B = m, the spec's m[7:0] above j[7:0] (41_polynomial.md rule R141). -/
def posInfo2 (m j : Nat) : Half := (BitVec.ofNat 8 m ++ BitVec.ofNat 8 j : BitVec 16)

end Sys2Proof.Machine
end

