-- ==== Sys2Proof/Machine/Ops.lean ====
section
/-! DEFINITION. The named operations over memory and registers (20_memory.md), the acceptance and the completion of a command
(30_encoding.md rules R96 and R98), the error exit (60_exceptions.md rule R201) and reset (70_reset_and_hazards.md). -/

namespace Sys2Proof.Machine

/-! ### Bytes of a word -/

/-- Byte k of bus data: v[8k+7:8k] (20_memory.md rule R65). -/
def byteOf (v : Word) (k : Nat) : Byte := v.extractLsb' (8 * k) 8

/-- The bytes of an n-byte access, lowest address first (20_memory.md rule R67). -/
def bytesOf (v : Word) (n : Nat) : List Byte := (List.range n).map (byteOf v)

/-- Little-endian: the first byte is bits [7:0] (20_memory.md rules R64 and R67). -/
def littleEndian : List Byte → Word
  | [] => 0#32
  | b :: bs => (littleEndian bs <<< 8) ||| b.setWidth 32

/-- The low n bytes of a word. -/
def lowBytes (n : Nat) (v : Word) : Word := littleEndian (bytesOf v n)

/-- Bits [7:0] of a 16-bit value. -/
def lowHalf (v : Half) : Byte := v.extractLsb' 0 8

/-- Bits [15:8] of a 16-bit value. -/
def highHalf (v : Half) : Byte := v.extractLsb' 8 8

/-! ### Storage -/

/-- What an offset reads as that memory does not list: the reset value of every buffer byte (10_state.md rule R49). -/
def unlistedByte : Byte := 0x00#8

/-- The canonical form: offsets strictly rising, no byte listed that equals `unlistedByte`. -/
abbrev memoryWf (m : Memory) : Prop := m.Pairwise (fun c d => c.1 < d.1) ∧ ∀ c ∈ m, c.2 ≠ unlistedByte

/-- The byte stored at an offset. -/
def readByte : Memory → Nat → Byte
  | [], _ => unlistedByte
  | c :: m, a => if c.1 = a then c.2 else readByte m a

/-- The cells of a block of bytes from offset `a` on. -/
def blockCells : Nat → List Byte → Memory
  | _, [] => []
  | a, b :: bs => if b = unlistedByte then blockCells (a + 1) bs else (a, b) :: blockCells (a + 1) bs

/-- Store a block of bytes at consecutive offsets from `a` on. -/
def writeBlock (m : Memory) (a : Nat) (bs : List Byte) : Memory :=
  m.filter (fun c => decide (c.1 < a)) ++ blockCells a bs ++ m.filter (fun c => decide (a + bs.length ≤ c.1))

/-- The n bytes stored from offset `a` on. -/
def readBlock (m : Memory) (a n : Nat) : List Byte := (List.range n).map fun k => readByte m (a + k)

/-! ### The window's map (20_memory.md rule R61) -/

/-- COEF[d] (20_memory.md rule R61). -/
def coefAddr (d : Nat) : Nat := 0x1000 + d

/-- PX[j] (20_memory.md rule R61). -/
def pxAddr (j : Nat) : Nat := 0x2000 + j

/-- PY[j] (20_memory.md rule R61). -/
def pyAddr (j : Nat) : Nat := 0x2100 + j

/-- SLEN[j] (20_memory.md rule R61). -/
def slenAddr (j : Nat) : Nat := 0x3000 + 4 * j

/-- SECRET[i] (20_memory.md rule R61). -/
def secretAddr (i : Nat) : Nat := 0x10000 + i

/-- SLOT[j][b] (20_memory.md rule R61). -/
def slotAddr (j b : Nat) : Nat := 0x1000000 + j * 0x10000 + b

/-- The region whose mapped bytes hold an offset (20_memory.md rules R61 and R62). -/
def regionOf (lmax off : Nat) : Region :=
  if off < 0x100 then .regs
  else if 0x1000 ≤ off ∧ off < 0x1100 then .coef
  else if 0x2000 ≤ off ∧ off < 0x2100 then .pointX
  else if 0x2100 ≤ off ∧ off < 0x2200 then .pointY
  else if 0x3000 ≤ off ∧ off < 0x3400 then .shareLen
  else if 0x10000 ≤ off ∧ off < 0x10000 + lmax then .secret
  else if 0x1000000 ≤ off ∧ (off - 0x1000000) / 0x10000 < 255 ∧ (off - 0x1000000) % 0x10000 ≤ lmax then
    .slot ((off - 0x1000000) / 0x10000)
  else .unmapped

/-- A well-placed access (20_memory.md rules R62 and R63). -/
def wellPlaced (lmax off n : Nat) : Bool :=
  (n == 1 || n == 2 || n == 4) && off % n == 0 && regionOf lmax off != .unmapped
    && (List.range n).all (fun k => regionOf lmax (off + k) == regionOf lmax off)
    && (regionOf lmax off != .regs || n == 4)

/-- Bytes +2 and +3 of a SHARE_LEN entry: no storage (20_memory.md rule R73). -/
def slenUpper (off : Nat) : Bool := decide (0x3000 ≤ off) && decide (off < 0x3400) && decide (2 ≤ off % 4)

/-- The byte a host read sees at a buffer offset (20_memory.md rules R64 and R73). -/
def loadByte (m : Memory) (off : Nat) : Byte := if slenUpper off then 0x00#8 else readByte m off

/-- The bytes a host read sees from a buffer offset on. -/
def loadBytes (m : Memory) (off n : Nat) : List Byte := (List.range n).map fun k => loadByte m (off + k)

/-- A host write of one byte at a buffer offset (20_memory.md rules R65 and R73). -/
def storeByte (m : Memory) (off : Nat) (b : Byte) : Memory := if slenUpper off then m else writeBlock m off [b]

/-- A host write of bytes from a buffer offset on, lowest address first (20_memory.md rule R65). -/
def storeBytes (m : Memory) (off : Nat) : List Byte → Memory
  | [] => m
  | b :: bs => storeBytes (storeByte m off b) (off + 1) bs

/-- SLEN[j][15:0], little-endian (10_state.md rule R38, 20_memory.md rule R67). -/
def slen (m : Memory) (j : Nat) : Half := (readByte m (slenAddr j + 1) ++ readByte m (slenAddr j) : BitVec 16)

/-- SLEN[j] <- v. -/
def setSlen (m : Memory) (j : Nat) (v : Half) : Memory := writeBlock m (slenAddr j) [lowHalf v, highHalf v]

/-! ### Reset, acceptance and completion -/

/-- Hard reset: every piece of the unit's state takes its reset value in one step (70_reset_and_hazards.md rule R240). The
parameters, the random-byte port (R243) and the host are not the unit's state (10_state.md rule R50). -/
def resetUnit (s : State) : State :=
  { State.reset with
    lmax := s.lmax, base := s.base, port := s.port, host := s.host, schedule := s.schedule, order := s.order
    freeMoves := s.freeMoves, freeReads := s.freeReads }

/-- Acceptance of a command word (30_encoding.md rule R96). It never fails: every word is accepted. -/
def accept (w : Word) (s : State) : State :=
  { s with cmd := w, status := acceptedStatus s.status, phase := .busy }

/-- Finish(code, info): the end of every completion step, and what the unit records where a processor would take a trap
(30_encoding.md rule R98, 60_exceptions.md rule R208). -/
def finish (code : ErrorCode) (info : Half) (s : State) : State :=
  { s with status := completedStatus (errorByte code) (opcOf s.cmd), errInfo := info, phase := .idle }

/-- A successful command ends with Finish(0x00, 0x0000) (30_encoding.md rule R98). -/
def succeed (s : State) : State := finish .ok 0x0000#16 s

/-- raise Error(code, info): Finish, with no other write made by the command (60_exceptions.md rule R201). -/
def raiseError (code : ErrorCode) (info : Half) (s : State) : State := finish code info s

/-- The host's acknowledgement of a completion: a write of 1 to STATUS bit 1 clears DONE (10_state.md rule R24,
60_exceptions.md rule R212). -/
def ackDone (s : State) : State := { s with status := { s.status with done := false } }

/-- The completion of a word that selects no command: E_ILLEGAL_CMD and nothing else (30_encoding.md rule R93). -/
def completeIllegal (s : State) : State := raiseError .illegalCmd 0x0000#16 s

/-! ### Registers -/

/-- CAPS: VERSION 0x01, NSLOT 0xFF, LMAX[15:0] (10_state.md rule R33). -/
def capsWord (lmax : Nat) : Word := (0x01#8 ++ 0xFF#8 ++ BitVec.ofNat 16 lmax : BitVec 32)

/-- ID: the constant 0x4746_3031 (10_state.md rule R22). -/
def idWord : Word := 0x47463031#32

/-- The register at an offset of REGS (10_state.md rules R21 and R34). -/
def regAt (off : Nat) : Reg :=
  match off with
  | 0x00 => .id
  | 0x04 => .ctrl
  | 0x08 => .status
  | 0x0C => .cmd
  | 0x10 => .opa
  | 0x14 => .opb
  | 0x18 => .result
  | 0x1C => .count
  | 0x20 => .param
  | 0x24 => .secretLen
  | 0x28 => .errInfo
  | 0x2C => .caps
  | _ => .reserved

/-- reg[NAME], the whole 32-bit register; reserved bits read 0 (10_state.md rules R22 to R34). -/
def readReg (s : State) : Reg → Word
  | .id => idWord
  | .ctrl => ctrlWord s.irqEn
  | .status => statusWord s.status
  | .cmd => s.cmd
  | .opa => s.opa.setWidth 32
  | .opb => s.opb.setWidth 32
  | .result => s.result.setWidth 32
  | .count => s.count.setWidth 32
  | .param => (s.paramN ++ s.paramK : BitVec 32)
  | .secretLen => s.secretLen.setWidth 32
  | .errInfo => s.errInfo.setWidth 32
  | .caps => capsWord s.lmax
  | .reserved => 0x00000000#32

/-- A write to CTRL: bit 1 = 1 is a soft reset and discards the other bits, else IRQ_EN takes bit 0 (10_state.md rule R23,
70_reset_and_hazards.md rule R241). -/
def writeCtrl (v : Word) (s : State) : State :=
  if v.getLsbD 1 then resetUnit s else { s with irqEn := v.getLsbD 0 }

/-- The register write rules (10_state.md rules R22 to R34). Read-only registers and reserved offsets ignore a write. -/
def writeReg (r : Reg) (v : Word) (s : State) : State :=
  match r with
  | .id => s
  | .ctrl => writeCtrl v s
  | .status => if v.getLsbD 1 then ackDone s else s
  | .cmd => accept v s
  | .opa => { s with opa := v.extractLsb' 0 8 }
  | .opb => { s with opb := v.extractLsb' 0 8 }
  | .result => s
  | .count => { s with count := v.extractLsb' 0 8 }
  | .param => { s with paramK := v.extractLsb' 0 16, paramN := v.extractLsb' 16 16 }
  | .secretLen => { s with secretLen := v.extractLsb' 0 16 }
  | .errInfo => s
  | .caps => s
  | .reserved => s

/-- The registers whose reads are exact while a command runs (20_memory.md rule R72). -/
def exactWhileBusy : Reg → Bool
  | .id | .ctrl | .status | .cmd | .caps => true
  | .opa | .opb | .result | .count | .param | .secretLen | .errInfo | .reserved => false

/-! ### The host bus -/

/-- A read whose value the spec leaves open (20_memory.md rule R72): the next free value (log 3). -/
def freeRead (n : Nat) (s : State) : BusAnswer × State :=
  (.data (lowBytes n (Config.busyRead s.freeReads)), { s with freeReads := s.freeReads + 1 })

/-- MemRead(addr, n) at a window offset (20_memory.md rule R64). It changes no state of the unit. -/
def memRead (off n : Nat) (s : State) : BusAnswer × State :=
  if wellPlaced s.lmax off n then
    if regionOf s.lmax off = .regs then
      if s.phase = .busy ∧ exactWhileBusy (regAt off) = false then freeRead n s
      else (.data (readReg s (regAt off)), s)
    else if s.phase = .busy then freeRead n s
    else (.data (littleEndian (loadBytes s.mem off n)), s)
  else (.busError, s)

/-- The write gate: while a command runs, only a write to CTRL passes (20_memory.md rule R65, 70_reset_and_hazards.md rule
R250). -/
def writeGated (off : Nat) (s : State) : Bool :=
  s.phase == .busy && !(regionOf s.lmax off == .regs && regAt off == .ctrl)

/-- MemWrite(addr, n, v) at a window offset (20_memory.md rule R65). -/
def memWrite (off n : Nat) (v : Word) (s : State) : BusAnswer × State :=
  if wellPlaced s.lmax off n then
    if writeGated off s then (.busError, s)
    else if regionOf s.lmax off = .regs then (.ok, writeReg (regAt off) v s)
    else (.ok, { s with mem := storeBytes s.mem off (bytesOf v n) })
  else (.busError, s)

/-- The window offset of a bus address: every address of the spec is an offset from BASE (20_memory.md rule R61, log 5). -/
def windowOffset (s : State) (addr : Word) : Nat := (addr - s.base).toNat

/-- The bus address of a window offset (20_memory.md rule R61). -/
def busAddress (s : State) (off : Word) : Word := s.base + off

end Sys2Proof.Machine
end

