-- ==== Sys2Proof/Machine/Operands.lean ====
section
/-! DEFINITION. The operand forms of the commands (30_encoding.md rules R94 and R95): every operand is read from a register or a
buffer in the completion step (10_state.md rule R42), and each result has its place (20_memory.md rule R81). -/

namespace Sys2Proof.Machine

/-- EVAL's coefficients: COEF[d] for d < COUNT (30_encoding.md rule R95). -/
def coefs (s : State) : List Byte := (List.range s.count.toNat).map fun d => readByte s.mem (coefAddr d)

/-- INTERP0's x coordinates: PX[j] for j < COUNT (30_encoding.md rule R95). -/
def pointXs (s : State) : List Byte := (List.range s.count.toNat).map fun j => readByte s.mem (pxAddr j)

/-- INTERP0's y coordinates: PY[j] for j < COUNT (30_encoding.md rule R95). -/
def pointYs (s : State) : List Byte := (List.range s.count.toNat).map fun j => readByte s.mem (pyAddr j)

/-- SPLIT's secret: SECRET[0..L-1] (30_encoding.md rule R95). -/
def secretBytes (s : State) : List Byte := (List.range s.secretLen.toNat).map fun i => readByte s.mem (secretAddr i)

/-- COMBINE's share lengths: SLEN[j] for j < COUNT (42_sharing.md rule R166). -/
def shareLens (s : State) : List Half := (List.range s.count.toNat).map fun j => slen s.mem j

/-- COMBINE's share indices: SLOT[j][0] for j < COUNT (42_sharing.md rule R166). -/
def shareIndices (s : State) : List Byte := (List.range s.count.toNat).map fun j => readByte s.mem (slotAddr j 0)

/-- COMBINE's payload bytes at position i: SLOT[j][1+i] for j < COUNT (42_sharing.md rule R166). -/
def sharePayloads (s : State) (i : Nat) : List Byte :=
  (List.range s.count.toNat).map fun j => readByte s.mem (slotAddr j (1 + i))

/-- How many bytes SPLIT draws: L*(K-1) (42_sharing.md rule R160). -/
def splitDraws (s : State) : Nat := s.secretLen.toNat * (s.paramK.toNat - 1)

/-- RESULT.R <- v (10_state.md rule R28). -/
def setResult (v : Byte) (s : State) : State := { s with result := v }

end Sys2Proof.Machine
end

