-- ==== Sys2Proof/Machine/FieldCommands.lean ====
section
/-! DEFINITION. The completion steps of ADD, SUB, MUL, DIV and INV (40_field.md rules R116 to R120). -/

namespace Sys2Proof.Machine

/-- ADD (40_field.md rule R116). -/
def execAdd (s : State) : Result := .next (succeed (setResult (gadd s.opa s.opb) s))

/-- SUB (40_field.md rule R117). -/
def execSub (s : State) : Result := .next (succeed (setResult (gsub s.opa s.opb) s))

/-- MUL (40_field.md rule R118). -/
def execMul (s : State) : Result := .next (succeed (setResult (gmul s.opa s.opb) s))

/-- DIV (40_field.md rule R119): E_DIV_ZERO exactly when b = 0x00. -/
def execDiv (s : State) : Result :=
  if s.opb = 0x00#8 then .next (raiseError .divZero 0x0000#16 s)
  else .next (succeed (setResult (gdiv s.opa s.opb) s))

/-- INV (40_field.md rule R120): E_INV_ZERO exactly when a = 0x00. -/
def execInv (s : State) : Result :=
  if s.opa = 0x00#8 then .next (raiseError .invZero 0x0000#16 s)
  else .next (succeed (setResult (ginv s.opa) s))

end Sys2Proof.Machine
end

