-- ==== Sys2Proof/Machine/Polynomial.lean ====
section
/-! DEFINITION. The polynomial functions of 41_polynomial.md section 1 (rules R140 to R142). -/

namespace Sys2Proof.Machine

/-- Horner evaluation: from the highest degree down, r <- r*x + c[d], starting at 0x00 (41_polynomial.md rule R140). -/
def horner (c : List Byte) (x : Byte) : Byte := c.foldr (fun cd r => gadd (gmul r x) cd) 0x00#8

/-- The duplicate scan of 41_polynomial.md rule R141: for j = `seen.length` on, the first earlier position m with the same
index. Answers (m, j) for the smallest such j. -/
def firstDup (seen : List Byte) : List Byte → Option (Nat × Nat)
  | [] => none
  | x :: rest =>
    match seen.findIdx? (· == x) with
    | some m => some (m, seen.length)
    | none => firstDup (seen ++ [x]) rest

/-- check_indices (41_polynomial.md rule R141): every zero check comes before any duplicate check. `none` is OK. -/
def checkIndices (xs : List Byte) : Option (ErrorCode × Half) :=
  match xs.findIdx? (· == 0x00#8) with
  | some j => some (.zeroIndex, posInfo j)
  | none =>
    match firstDup [] xs with
    | some (m, j) => some (.dupIndex, posInfo2 m j)
    | none => none

/-- The factors of term j: t <- ys[j], then t <- gmul(t, gdiv(xs[m], gsub(xs[j], xs[m]))) for each m ≠ j
(41_polynomial.md rule R142). -/
def lagrangeTerm (xs ys : List Byte) (j : Nat) : Byte :=
  (List.range xs.length).foldl
    (fun t m => if m = j then t
      else gmul t (gdiv (xs.getD m 0x00#8) (gsub (xs.getD j 0x00#8) (xs.getD m 0x00#8))))
    (ys.getD j 0x00#8)

/-- Lagrange interpolation at x = 0: the sum of the terms (41_polynomial.md rule R142). -/
def lagrange0 (xs ys : List Byte) : Byte :=
  (List.range xs.length).foldl (fun acc j => gadd acc (lagrangeTerm xs ys j)) 0x00#8

end Sys2Proof.Machine
end

