-- ==== Sys2Proof/Machine/PolynomialCommands.lean ====
section
/-! DEFINITION. The completion steps of EVAL and INTERP0 (41_polynomial.md rules R143 and R145). -/

namespace Sys2Proof.Machine

/-- EVAL (41_polynomial.md rule R143). -/
def execEval (s : State) : Result := .next (succeed (setResult (horner (coefs s) s.opa) s))

/-- INTERP0's checks in their order: P < 2, then check_indices (41_polynomial.md rule R145). -/
def interp0Check (s : State) : Option (ErrorCode × Half) :=
  if s.count.toNat < 2 then some (.tooFew, 0x0000#16) else checkIndices (pointXs s)

/-- INTERP0 (41_polynomial.md rule R145). -/
def execInterp0 (s : State) : Result :=
  match interp0Check s with
  | some (code, info) => .next (raiseError code info s)
  | none => .next (succeed (setResult (lagrange0 (pointXs s) (pointYs s)) s))

end Sys2Proof.Machine
end

