-- ==== Sys2Proof/Machine/SharingCommands.lean ====
section
/-! DEFINITION. The completion steps of SPLIT, COMBINE and ZEROIZE (42_sharing.md rules R160, R166 and R170). -/

namespace Sys2Proof.Machine

/-! ### SPLIT -/

/-- SPLIT's checks in their order; only the first that fails is reported (42_sharing.md rules R160 and R161). -/
def splitCheck (s : State) : Option ErrorCode :=
  if s.secretLen.toNat = 0 then some .splitEmpty
  else if s.paramK.toNat < 2 then some .splitKLt2
  else if s.paramN.toNat < s.paramK.toNat then some .splitNLtK
  else if 255 < s.paramN.toNat then some .splitNGt255
  else if s.lmax < s.secretLen.toNat then some .splitTooLong
  else none

/-- The polynomials p_i: the secret byte, then k1 = K-1 draws, taken position by position and by rising degree
(42_sharing.md rule R162). -/
def splitPolys : List Byte → Nat → List Byte → List (List Byte)
  | [], _, _ => []
  | b :: bs, k1, draws => (b :: draws.take k1) :: splitPolys bs k1 (draws.drop k1)

/-- The share of index x: x, then every p_i at x (42_sharing.md rule R163). -/
def shareBytes (polys : List (List Byte)) (x : Byte) : List Byte := x :: polys.map fun p => horner p x

/-- The share of index x = j + 1 goes to slot j, with its length in SLEN[j] (42_sharing.md rules R160 and R163). -/
def writeShare (polys : List (List Byte)) (len : Half) (m : Memory) (j : Nat) : Memory :=
  setSlen (writeBlock m (slotAddr j 0) (shareBytes polys (BitVec.ofNat 8 (j + 1)))) j len

/-- The shares of x = 1..N, in slot order (42_sharing.md rule R163). -/
def writeShares (polys : List (List Byte)) (len : Half) (n : Nat) (m : Memory) : Memory :=
  (List.range n).foldl (writeShare polys len) m

/-- The polynomials SPLIT makes of SECRET and the port's bytes (42_sharing.md rules R160 and R162). -/
def splitPolysOf (s : State) : List (List Byte) := splitPolys (secretBytes s) (s.paramK.toNat - 1) s.port

/-- What a SPLIT writes whose draws have all come (42_sharing.md rule R160). -/
def splitWrites (s : State) : State :=
  { s with
    mem := writeShares (splitPolysOf s) (s.secretLen + 1#16) s.paramN.toNat s.mem
    count := s.paramN.extractLsb' 0 8
    port := s.port.drop (splitDraws s) }

/-- SPLIT (42_sharing.md rule R160). While the port has not supplied every byte it is held: the step ends with nothing done
and the unit still BUSY (70_reset_and_hazards.md rule R252, log 2). -/
def execSplit (s : State) : Result :=
  match splitCheck s with
  | some code => .next (raiseError code 0x0000#16 s)
  | none => if s.port.length < splitDraws s then .next s else .next (succeed (splitWrites s))

/-! ### COMBINE -/

/-- COMBINE's checks in their order (42_sharing.md rules R166 and R167). -/
def combineCheck (s : State) : Option (ErrorCode × Half) :=
  if s.count.toNat < 2 then some (.tooFew, 0x0000#16)
  else match (shareLens s).findIdx? (fun len => len != slen s.mem 0) with
    | some j => some (.lenMismatch, posInfo j)
    | none =>
      if (slen s.mem 0).toNat < 2 then some (.shareTooShort, 0x0000#16)
      else if s.lmax + 1 < (slen s.mem 0).toNat then some (.shareTooLong, 0x0000#16)
      else checkIndices (shareIndices s)

/-- The recovered bytes: for each payload position the interpolation over all the shares (42_sharing.md rule R168). -/
def combinedSecret (s : State) : List Byte :=
  (List.range ((slen s.mem 0).toNat - 1)).map fun i => lagrange0 (shareIndices s) (sharePayloads s i)

/-- What a successful COMBINE writes (42_sharing.md rule R166). -/
def combineWrites (s : State) : State :=
  { s with
    mem := writeBlock s.mem (secretAddr 0) (combinedSecret s)
    secretLen := slen s.mem 0 - 1#16 }

/-- COMBINE (42_sharing.md rule R166). -/
def execCombine (s : State) : Result :=
  match combineCheck s with
  | some (code, info) => .next (raiseError code info s)
  | none => .next (succeed (combineWrites s))

/-! ### ZEROIZE -/

/-- What ZEROIZE writes: every buffer byte and every operand register (42_sharing.md rule R170). -/
def zeroizeWrites (s : State) : State :=
  { s with
    mem := []
    opa := 0x00#8
    opb := 0x00#8
    result := 0x00#8
    count := 0x00#8
    paramK := 0x0000#16
    paramN := 0x0000#16
    secretLen := 0x0000#16 }

/-- ZEROIZE (42_sharing.md rule R170). -/
def execZeroize (s : State) : Result := .next (succeed (zeroizeWrites s))

end Sys2Proof.Machine
end

