-- ==== Sys2Proof/Machine/Dispatch.lean ====
section
/-! DEFINITION. Dispatch (30_encoding.md rule R99): the completion step of each command. -/

namespace Sys2Proof.Machine

def exec (i : Instr) (s : State) : Host.Outcome State Fault Refusal :=
  match i with
  | .add => Sys2Proof.Machine.execAdd s
  | .sub => Sys2Proof.Machine.execSub s
  | .mul => Sys2Proof.Machine.execMul s
  | .div => Sys2Proof.Machine.execDiv s
  | .inv => Sys2Proof.Machine.execInv s
  | .eval => Sys2Proof.Machine.execEval s
  | .interp0 => Sys2Proof.Machine.execInterp0 s
  | .split => Sys2Proof.Machine.execSplit s
  | .combine => Sys2Proof.Machine.execCombine s
  | .zeroize => Sys2Proof.Machine.execZeroize s

end Sys2Proof.Machine
end

