-- ==== Sys2Proof/Machine/HostProgram.lean ====
section
/-! DEFINITION. The host program's operations (30_encoding.md rule R101), its pseudo-operations (R103 to R106) and the textual
form of a transaction (R102). -/

namespace Sys2Proof.Machine

/-! ### Variables -/

/-- The value of a host variable. -/
def getVar (v : HostVars) : HostVar → Word
  | .h0 => v.h0
  | .h1 => v.h1
  | .h2 => v.h2
  | .h3 => v.h3
  | .h4 => v.h4
  | .h5 => v.h5
  | .h6 => v.h6
  | .h7 => v.h7

/-- A host variable takes a value; the others keep theirs. -/
def setVar (h : HostVar) (x : Word) (v : HostVars) : HostVars :=
  match h with
  | .h0 => { v with h0 := x }
  | .h1 => { v with h1 := x }
  | .h2 => { v with h2 := x }
  | .h3 => { v with h3 := x }
  | .h4 => { v with h4 := x }
  | .h5 => { v with h5 := x }
  | .h6 => { v with h6 := x }
  | .h7 => { v with h7 := x }

/-- A write's data operand: an immediate or a variable (30_encoding.md rule R101). -/
def hostVal (v : HostVars) : HostVal → Word
  | .imm x => x
  | .var h => getVar v h

/-! ### One line of the host program -/

/-- The host goes on to line k. -/
def atLine (k : Nat) (s : State) : State := { s with host := { s.host with line := k } }

/-- The host goes on to the next line. -/
def nextLine (s : State) : State := atLine (s.host.line + 1) s

/-- A line that gives a variable a value and causes no transaction. -/
def hostSet (d : HostVar) (x : Word) (s : State) : State :=
  nextLine { s with host := { s.host with vars := setVar d x s.host.vars } }

/-- The host notes its transaction and the bus's answer (log 6). -/
def noteTxn (t : Txn) (a : BusAnswer) (s : State) : State := { s with host := { s.host with last := some (t, a) } }

/-- The host program stops with outcome BUSERR (30_encoding.md rule R101). -/
def stopBuserr (s : State) : State := { s with host := { s.host with outcome := .buserr } }

/-- HALT: the end of the host program (30_encoding.md rule R101). -/
def hostHalt (s : State) : State := { s with host := { s.host with outcome := .halted } }

/-- `W<8n> off, v`: MemWrite(off, n, v) (30_encoding.md rule R101). -/
def hostWrite (n : Nat) (off v : Word) (s : State) : State :=
  let r := memWrite (windowOffset s (busAddress s off)) n v s
  let t := noteTxn (.write n off v) r.1 r.2
  match r.1 with
  | .busError => stopBuserr t
  | .ok | .data _ => nextLine t

/-- `R<8n> hN, off`: hN <- zext_32(MemRead(off, n)) (30_encoding.md rule R101). -/
def hostRead (n : Nat) (h : HostVar) (off : Word) (s : State) : State :=
  let r := memRead (windowOffset s (busAddress s off)) n s
  let t := noteTxn (.read n off) r.1 r.2
  match r.1 with
  | .data x => hostSet h x t
  | .ok => nextLine t
  | .busError => stopBuserr t

/-- The line at which a label stands. -/
def labelLine (p : List HostOp) (l : Nat) : Option Nat := p.findIdx? (· == .label l)

/-- A branch of the host program (30_encoding.md rule R101). A label the program does not define has no meaning (log 7). -/
def hostJump (l : Nat) (s : State) : Result :=
  match labelLine s.host.program l with
  | some k => .next (atLine k s)
  | none => .fault .undefinedLabel

/-- One line of the host program (30_encoding.md rule R101). -/
def hostLine (op : HostOp) (s : State) : Result :=
  match op with
  | .write n off v => .next (hostWrite n off (hostVal s.host.vars v) s)
  | .read n h off => .next (hostRead n h off s)
  | .andi d m imm => .next (hostSet d (getVar s.host.vars m &&& imm) s)
  | .addi d m imm => .next (hostSet d (getVar s.host.vars m + imm) s)
  | .shri d m k => .next (hostSet d (getVar s.host.vars m >>> k) s)
  | .beqi h imm l => if getVar s.host.vars h = imm then hostJump l s else .next (nextLine s)
  | .bnei h imm l => if getVar s.host.vars h = imm then .next (nextLine s) else hostJump l s
  | .jump l => hostJump l s
  | .halt => .next (hostHalt s)
  | .label _ => .next (nextLine s)

/-- The host's step: the line it stands at, while its program runs and has such a line; else it issues nothing (log 6). -/
def hostStep (s : State) : Result :=
  match s.host.outcome with
  | .running =>
    match s.host.program[s.host.line]? with
    | some op => hostLine op s
    | none => .next s
  | .halted | .buserr => .next s

/-! ### Pseudo-operations -/

/-- `CMD <mnemonic>` (30_encoding.md rule R103). -/
def pseudoCmd (i : Instr) : List HostOp := [.write 4 0x0C#32 (.imm (encode i))]

/-- `WAIT`, with a label of its own (30_encoding.md rule R104). -/
def pseudoWait (l : Nat) : List HostOp := [.label l, .read 4 .h7 0x08#32, .andi .h7 .h7 0x1#32, .bnei .h7 0#32 l]

/-- `ERR hN` (30_encoding.md rule R105). -/
def pseudoErr (h : HostVar) : List HostOp := [.read 4 h 0x08#32, .shri h h 8, .andi h h 0xFF#32]

/-- `ACK` (30_encoding.md rule R105). -/
def pseudoAck : List HostOp := [.write 4 0x08#32 (.imm 0x00000002#32)]

/-- `WBYTES off, b0, ..., bk` (30_encoding.md rule R106). -/
def pseudoWbytes (off : Word) : List Byte → List HostOp
  | [] => []
  | b :: bs => .write 1 off (.imm (b.setWidth 32)) :: pseudoWbytes (off + 1#32) bs

/-- `RUN <mnemonic>` (30_encoding.md rule R106). -/
def pseudoRun (i : Instr) (l : Nat) : List HostOp := pseudoCmd i ++ pseudoWait l

/-! ### The textual form of a transaction (30_encoding.md rule R102) -/

/-- One hex digit, in capitals. -/
def hexDigit (d : Nat) : Char :=
  match d with
  | 0 => '0' | 1 => '1' | 2 => '2' | 3 => '3' | 4 => '4' | 5 => '5' | 6 => '6' | 7 => '7'
  | 8 => '8' | 9 => '9' | 10 => 'A' | 11 => 'B' | 12 => 'C' | 13 => 'D' | 14 => 'E' | _ => 'F'

/-- The low `k` hex digits of a number, the highest first. -/
def hexDigits : Nat → Nat → List Char
  | 0, _ => []
  | k + 1, v => hexDigits k (v / 16) ++ [hexDigit (v % 16)]

/-- `<W|R><n> @<off> = <data>` (30_encoding.md rule R102), as characters; the data of a read is the value read.
A read that ends in a bus error returns no data, and R102 gives no form for it: its text stops before `=` (DESIGN CHOICE,
log 15). -/
def txnText (t : Txn) (a : BusAnswer) : List Char :=
  match t, a with
  | .write n off v, _ =>
    ['W'] ++ hexDigits 1 n ++ [' ', '@'] ++ hexDigits 8 off.toNat ++ [' ', '=', ' '] ++ hexDigits (2 * n) v.toNat
  | .read n off, .data v =>
    ['R'] ++ hexDigits 1 n ++ [' ', '@'] ++ hexDigits 8 off.toNat ++ [' ', '=', ' '] ++ hexDigits (2 * n) v.toNat
  | .read n off, .ok | .read n off, .busError => ['R'] ++ hexDigits 1 n ++ [' ', '@'] ++ hexDigits 8 off.toNat

end Sys2Proof.Machine
end

