-- ==== Sys2Proof/Machine/Agents.lean ====
section
/-! DEFINITION. The steps of the four agents (10_state.md rule R20): host, command engine, random-byte port and reset input. -/

namespace Sys2Proof.Machine

/-- Dispatch(reg[CMD]): the command the word selects, else the error exit of an illegal word (30_encoding.md rule R99). -/
def completionStep (s : State) : Result :=
  match decode s.cmd with
  | .command i => exec i s
  | .illegal _ => .next (completeIllegal s)

/-- The engine's step: enabled exactly when PHASE = BUSY (30_encoding.md rule R97); while IDLE it does nothing. -/
def engineStep (s : State) : Result :=
  match s.phase with
  | .busy => completionStep s
  | .idle => .next s

/-- A SPLIT that waits for the random-byte port (70_reset_and_hazards.md rule R252). -/
def engineHeld (s : State) : Bool :=
  decode s.cmd == .command .split && splitCheck s == none && decide (s.port.length < splitDraws s)

/-- The engine can complete its command now. -/
def engineReady (s : State) : Bool := s.phase == .busy && !engineHeld s

/-- The platform supplies one byte to the random-byte port (10_state.md rule R44). -/
def supplyByte (b : Byte) (s : State) : State := { s with port := s.port ++ [b] }

/-- The step of the agent that moves. -/
def moveStep (mv : Move) (s : State) : Result :=
  match mv with
  | .host => hostStep s
  | .engine => engineStep s
  | .rst => .next (resetUnit s)
  | .rng b => .next (supplyByte b s)

/-- Who moves when nothing is scheduled, by State.order (70_reset_and_hazards.md rule R261, log 1). -/
def defaultMove (s : State) : Move :=
  match s.order with
  | .engineFirst => if engineReady s then .engine else .host
  | .hostOnly => .host
  | .free => Config.freeMove s.freeMoves

/-- Who makes the next move. -/
def mover (s : State) : Move := s.schedule.headD (defaultMove s)

/-- How many free moves the next step takes. -/
def movesDrawn (s : State) : Nat :=
  match s.schedule with
  | _ :: _ => 0
  | [] =>
    match s.order with
    | .engineFirst | .hostOnly => 0
    | .free => 1

/-- The state the mover acts on: its move is off the schedule, or off the free moves. -/
def takeTurn (s : State) : State := { s with schedule := s.schedule.tail, freeMoves := s.freeMoves + movesDrawn s }

end Sys2Proof.Machine
end

