-- ==== Sys2Proof/Machine/Step.lean ====
section
/-! DEFINITION. One step of the whole: one agent moves (10_state.md rule R20). The order of the agents is free (30_encoding.md
rule R97), so it is data: State.schedule, and after its end State.order (log 1). -/

namespace Sys2Proof.Machine

/-- One step: the next scheduled agent moves, or the one State.order gives when nothing is scheduled. -/
def step (s : State) : Host.Outcome State Fault Refusal := moveStep (mover s) (takeTurn s)

/-- The command word `w` accepted, as by a CMD write (30_encoding.md rule R96), with the engine to move next, so that the very
next step is the completion step of that word (log 8). -/
def State.withFetchWord (s : State) (nbits w : Nat) : State :=
  { accept (BitVec.ofNat 32 (w % 2 ^ nbits)) s with schedule := .engine :: s.schedule }

end Sys2Proof.Machine
end

