-- ==== Sys2Proof/WellFormed.lean ====
section
/-! DEFINITION. What is well-formed: a command word (30_encoding.md rules R90 and R92), a command, and a host program (R101). -/

namespace Sys2Proof.WellFormed

open Sys2Proof.Machine

/-- RSVD, bits [31:8], is 0 (30_encoding.md rule R90). -/
def rsvdZero (w : Word) : Bool := w.extractLsb' 8 24 == 0#24

/-- OPC, bits [7:0], is one of 0x01 to 0x0A (30_encoding.md rule R92). -/
def opcAssigned (w : Word) : Bool := 1 ≤ (w.extractLsb' 0 8).toNat && (w.extractLsb' 0 8).toNat ≤ 10

/-- A word that selects a command (30_encoding.md rule R92). -/
def commandWord (w : Word) : Bool := rsvdZero w && opcAssigned w

/-- A command has no operand field (30_encoding.md rule R94), so no value of `Instr` is ill-formed. -/
def instr : Instr → Bool
  | .add | .sub | .mul | .div | .inv | .eval | .interp0 | .split | .combine | .zeroize => true

/-- A transaction is of 1, 2 or 4 bytes (20_memory.md rule R60). -/
def width (n : Nat) : Bool := n == 1 || n == 2 || n == 4

/-- The label a line branches to, if it branches. -/
def target : HostOp → Option Nat
  | .beqi _ _ l => some l
  | .bnei _ _ l => some l
  | .jump l => some l
  | .write _ _ _ | .read _ _ _ | .andi _ _ _ | .addi _ _ _ | .shri _ _ _ | .halt | .label _ => none

/-- The labels a program defines, in order. -/
def labels : List HostOp → List Nat
  | [] => []
  | .label l :: p => l :: labels p
  | _ :: p => labels p

/-- Every access of the program has a width of the bus. -/
def widths (p : List HostOp) : Bool :=
  p.all fun
    | .write n _ _ => width n
    | .read n _ _ => width n
    | _ => true

/-- Every label the program branches to stands in it. -/
def targetsDefined (p : List HostOp) : Bool :=
  p.all fun op => match target op with
    | some l => (labels p).contains l
    | none => true

/-- No label stands twice: a label is "a position in the host program" (R101). -/
def labelsUnique (p : List HostOp) : Bool := (labels p).Nodup

/-- A well-formed host program. -/
def hostProgram (p : List HostOp) : Bool := widths p && targetsDefined p && labelsUnique p

end Sys2Proof.WellFormed
end

