-- ==== Sys2Proof/Safety.lean ====
section
/-! DEFINITION. What claims are made in terms of: the invariant of the machine, the part of a state that is the unit's, and runs
that never stop. -/

namespace Sys2Proof.Machine

/-- An offset that is storage of a buffer (20_memory.md rules R61 and R73). -/
def isStorage (lmax off : Nat) : Bool :=
  match regionOf lmax off with
  | .regs | .unmapped => false
  | .coef | .pointX | .pointY | .shareLen | .secret | .slot _ => !slenUpper off

/-- The codes whose completion names a position (60_exceptions.md rules R200 and R202). -/
def namesPosition (err : Byte) : Bool :=
  err == errorByte .lenMismatch || err == errorByte .zeroIndex || err == errorByte .dupIndex

/-- The invariant that every step keeps. -/
structure Inv (s : State) : Prop where
  /-- 1 ≤ LMAX ≤ 65534 (00_scope.md rule R7). -/
  lmaxLegal : Config.lmaxLeast ≤ s.lmax ∧ s.lmax ≤ Config.lmaxGreatest
  /-- Memory is in its canonical form. -/
  memCanonical : memoryWf s.mem
  /-- Memory lists only storage of the buffers (20_memory.md rules R61 and R73). -/
  memMapped : ∀ c ∈ s.mem, isStorage s.lmax c.1 = true
  /-- PHASE is always equal to STATUS.BUSY (10_state.md rule R41). -/
  phaseIsBusy : s.phase = .busy ↔ s.status.busy = true
  /-- DONE is cleared at acceptance and set at completion (10_state.md rule R48). -/
  busyNotDone : s.status.busy = true → s.status.done = false
  /-- ERRF equals 1 exactly when ERR ≠ 0x00 (10_state.md rule R24). -/
  errfIsErr : s.status.errf = true ↔ s.status.err ≠ 0x00#8
  /-- No code outside the table is ever written (60_exceptions.md rule R200). -/
  errInTable : ∃ code, s.status.err = errorByte code
  /-- ERR_INFO is 0 unless the last error names a position (60_exceptions.md rule R202). -/
  infoNamed : s.errInfo = 0x0000#16 ∨ namesPosition s.status.err = true

/-- The unit's own part of a state: the outside agents' fields and the free-value counters blanked (10_state.md rule R50). -/
def unitPart (s : State) : State :=
  { s with port := [], host := HostAgent.start, schedule := [], order := .engineFirst, freeMoves := 0, freeReads := 0 }

/-- The state after a command with opcode `opc` that succeeded, given its writes: Finish(0x00, 0x0000)
(30_encoding.md rule R98). -/
def doneWith (opc : Byte) (s : State) : State :=
  { s with
    status := { busy := false, done := true, errf := false, err := 0x00#8, lastOpc := opc }
    errInfo := 0x0000#16
    phase := .idle }

/-- The state after a command with opcode `opc` that failed: STATUS and ERR_INFO written and nothing else
(60_exceptions.md rule R201). -/
def failedWith (opc code : Byte) (info : Half) (s : State) : State :=
  { s with
    status := { busy := false, done := true, errf := true, err := code, lastOpc := opc }
    errInfo := info
    phase := .idle }

/-- SPLIT's checks pass and the port has supplied its draws (42_sharing.md rule R160). -/
structure SplitReady (s : State) : Prop where
  secretNonempty : 1 ≤ s.secretLen.toNat
  secretFits : s.secretLen.toNat ≤ s.lmax
  thresholdAtLeastTwo : 2 ≤ s.paramK.toNat
  thresholdAtMostShares : s.paramK.toNat ≤ s.paramN.toNat
  sharesFitAByte : s.paramN.toNat ≤ 255
  drawsSupplied : s.secretLen.toNat * (s.paramK.toNat - 1) ≤ s.port.length

/-- COMBINE's checks pass on shares of `len` bytes each (42_sharing.md rule R166). -/
structure CombineReady (len : Half) (s : State) : Prop where
  atLeastTwo : 2 ≤ s.count.toNat
  lengthsEqual : ∀ j < s.count.toNat, slen s.mem j = len
  longEnough : 2 ≤ len.toNat
  shortEnough : len.toNat ≤ s.lmax + 1
  indicesNonzero : ∀ j < s.count.toNat, readByte s.mem (slotAddr j 0) ≠ 0x00#8
  indicesDistinct : ∀ j < s.count.toNat, ∀ m < j, readByte s.mem (slotAddr m 0) ≠ readByte s.mem (slotAddr j 0)

/-- A run of n steps from s that never stops. -/
def RunsFor (n : Nat) (s : State) : Prop := ∃ t, Host.Core.run Sys2Proof.core n s = Host.Outcome.next t

/-- A run of s that never stops, however long. -/
def NeverStops (s : State) : Prop := ∀ n, RunsFor n s

end Sys2Proof.Machine
end

