-- ==== Sys2Proof/Certificates/Slice0/Obligations.lean ====
section
/-! DEFINITION. The statements for the provers. `doneWith`, `failedWith`, `SplitReady`, `CombineReady`, `Inv`, `unitPart` and
`NeverStops` are of Sys2Proof/Safety.lean. -/

open Sys2Proof Sys2Proof.Machine

/-- The polynomial over GF(2) whose coefficients are a byte's bits (40_field.md rule R111). -/
noncomputable def Sys2Proof.bytePolynomial (a : Byte) : Polynomial (ZMod 2) :=
  ∑ i ∈ Finset.range 8, if a.getLsbD i then Polynomial.X ^ i else 0

/-- x^8 + x^4 + x^3 + x + 1 (00_scope.md rule R7). -/
noncomputable def Sys2Proof.aesPolynomial : Polynomial (ZMod 2) :=
  Polynomial.X ^ 8 + Polynomial.X ^ 4 + Polynomial.X ^ 3 + Polynomial.X + 1

/-- The words 0x00000001 to 0x0000000A, written out from the opcode map, decode to ADD, SUB, MUL, DIV, INV, EVAL, INTERP0,
SPLIT, COMBINE and ZEROIZE; the neighbours 0x00000000 and 0x0000000B and a word with RSVD not 0 decode to no command. Rests
on 30_encoding.md R92. -/
def Obligations.TheTenCommandWordsDecodeToTheTenCommands : Prop :=
  decode 0x00000001#32 = .command .add ∧ decode 0x00000002#32 = .command .sub ∧ decode 0x00000003#32 = .command .mul ∧
  decode 0x00000004#32 = .command .div ∧ decode 0x00000005#32 = .command .inv ∧ decode 0x00000006#32 = .command .eval ∧
  decode 0x00000007#32 = .command .interp0 ∧ decode 0x00000008#32 = .command .split ∧
  decode 0x00000009#32 = .command .combine ∧ decode 0x0000000A#32 = .command .zeroize ∧
  decode 0x00000000#32 = .illegal .opcUnassigned ∧ decode 0x0000000B#32 = .illegal .opcUnassigned ∧
  decode 0x00000103#32 = .illegal .rsvdNonzero

/-- For every command, its encoded word has RSVD = 0 and an assigned OPC, and the decoder reads the command back from it.
Rests on 30_encoding.md R90; 30_encoding.md R92. -/
def Obligations.DecodingAnEncodedCommandGivesItBack : Prop :=
  ∀ i : Instr, WellFormed.commandWord (encode i) = true ∧ decode (encode i) = .command i

/-- A word decodes to a command i exactly when it is the encoding of i; a word decodes to some command exactly when its
value is 1 to 10; and every other word decodes to ILLEGAL. States R100. -/
def Obligations.ExactlyTheTenEncodedWordsDecode : Prop :=
  (∀ (w : Word) (i : Instr), decode w = .command i ↔ w = encode i) ∧
  (∀ w : Word, (∃ i, decode w = .command i) ↔ 1 ≤ w.toNat ∧ w.toNat ≤ 10) ∧
  (∀ w : Word, (∃ why, decode w = .illegal why) ↔ ¬(1 ≤ w.toNat ∧ w.toNat ≤ 10))

/-- While PHASE = BUSY and CMD decodes to i, the engine's scheduled move is exec of i at the state without that move; with
nothing scheduled and the order engine-first the same holds unless i is a SPLIT that waits for random bytes. In any state
with nothing scheduled, the order host-only moves the host, and the free order moves whichever agent the next free value
names. The three orders are the model's form of the free order of the agents (log 1). Rests on 30_encoding.md R97;
30_encoding.md R99; 70_reset_and_hazards.md R261; log 1. -/
def Obligations.AStepRunsTheDecodedCommand : Prop :=
  (∀ (s : State) (i : Instr), s.phase = .busy → decode s.cmd = .command i →
    (∀ rest, s.schedule = .engine :: rest → step s = exec i { s with schedule := rest }) ∧
    (s.schedule = [] → s.order = .engineFirst →
      ¬(i = .split ∧ splitCheck s = none ∧ s.port.length < splitDraws s) → step s = exec i s)) ∧
  (∀ s : State, s.schedule = [] → s.order = .hostOnly → step s = moveStep .host s) ∧
  (∀ s : State, s.schedule = [] → s.order = .free →
    step s = moveStep (Config.freeMove s.freeMoves) { s with freeMoves := s.freeMoves + 1 })

/-- A CMD write of an illegal word while IDLE is accepted like any other; the engine's move for it writes STATUS (BUSY 0,
DONE 1, ERRF 1, ERR 0x01, LAST_OPC the word's bits [7:0]) and ERR_INFO = 0, sets PHASE to IDLE and leaves every other field
as it was. States R93. -/
def Obligations.AnIllegalWordCompletesWithErrorOneOnly : Prop :=
  ∀ (s : State) (w : Word), (w.extractLsb' 8 24 ≠ 0#24 ∨ w.extractLsb' 0 8 = 0#8 ∨ 0x0B ≤ (w.extractLsb' 0 8).toNat) →
    (s.phase = .idle → memWrite 0x0C 4 w s = (.ok, accept w s)) ∧
    (∀ rest, s.phase = .busy → s.cmd = w → s.schedule = .engine :: rest →
      step s = .next (failedWith (w.extractLsb' 0 8) 0x01#8 0x0000#16 { s with schedule := rest }))

/-- While IDLE the engine's move changes nothing but the schedule. While BUSY, unless CMD is a SPLIT waiting for random
bytes, the engine's move gives a state with PHASE = IDLE, BUSY = 0, DONE = 1, LAST_OPC = CMD[7:0], ERRF = (ERR ≠ 0), and CMD
and CTRL unchanged; so does the step with nothing scheduled and the order engine-first. With nothing scheduled and the order
host-only, the engine's step is never taken: from a state with DONE = 0 no number of steps gives DONE = 1, whatever the host
does, and from a BUSY state with the host at the start of WAIT every number of steps ends BUSY with the program still
running inside WAIT. The orders are the model's (log 1). Rests on 30_encoding.md R97; 30_encoding.md R98; 30_encoding.md
R104; 70_reset_and_hazards.md R252; 70_reset_and_hazards.md R261; log 1. -/
def Obligations.TheEngineMovesOnlyWhileBusyAndThenCompletes : Prop :=
  (∀ (s : State) (rest : List Move), s.schedule = .engine :: rest →
    (s.phase = .idle → step s = .next { s with schedule := rest }) ∧
    (s.phase = .busy → ¬(decode s.cmd = .command .split ∧ splitCheck s = none ∧ s.port.length < splitDraws s) →
      ∃ t, step s = .next t ∧ t.phase = .idle ∧ t.status.busy = false ∧ t.status.done = true ∧
        t.status.lastOpc = s.cmd.extractLsb' 0 8 ∧ (t.status.errf = true ↔ t.status.err ≠ 0x00#8) ∧
        t.cmd = s.cmd ∧ t.irqEn = s.irqEn ∧ t.schedule = rest)) ∧
  (∀ s : State, s.schedule = [] → s.order = .engineFirst → s.phase = .busy →
    ¬(decode s.cmd = .command .split ∧ splitCheck s = none ∧ s.port.length < splitDraws s) →
    ∃ t, step s = .next t ∧ t.phase = .idle ∧ t.status.busy = false ∧ t.status.done = true ∧
      t.status.lastOpc = s.cmd.extractLsb' 0 8 ∧ (t.status.errf = true ↔ t.status.err ≠ 0x00#8) ∧
      t.cmd = s.cmd ∧ t.irqEn = s.irqEn) ∧
  (∀ (n : Nat) (s t : State), s.schedule = [] → s.order = .hostOnly → s.status.done = false →
    Host.Core.run Sys2Proof.core n s = Host.Outcome.next t → t.status.done = false) ∧
  (∀ (s : State) (l n : Nat), s.schedule = [] → s.order = .hostOnly → s.phase = .busy → s.status.busy = true →
    s.host.program = pseudoWait l → s.host.line = 0 → s.host.outcome = .running →
    ∃ t, Host.Core.run Sys2Proof.core n s = Host.Outcome.next t ∧ t.phase = .busy ∧ t.host.outcome = .running ∧
      t.host.line < (pseudoWait l).length)

/-- With its word 0x00000001 in CMD, which decodes to ADD, the command always completes: RESULT becomes OPA XOR OPB, STATUS
shows success with LAST_OPC 0x01, ERR_INFO is 0, PHASE is IDLE, and every other field of the state, memory and port
included, is unchanged. States R116. -/
def Obligations.AddWritesTheXorOfItsOperands : Prop :=
  ∀ s : State, s.cmd = 0x00000001#32 → decode s.cmd = .command .add ∧
    exec .add s = .next (doneWith 0x01#8 { s with result := s.opa ^^^ s.opb })

/-- With its word 0x00000002 in CMD, which decodes to SUB, the command always completes: RESULT becomes OPA XOR OPB, the
value ADD gives, STATUS shows success with LAST_OPC 0x02, ERR_INFO is 0, PHASE is IDLE, and every other field of the state,
memory and port included, is unchanged. States R117. -/
def Obligations.SubWritesTheXorOfItsOperands : Prop :=
  ∀ s : State, s.cmd = 0x00000002#32 → decode s.cmd = .command .sub ∧
    exec .sub s = .next (doneWith 0x02#8 { s with result := s.opa ^^^ s.opb })

/-- With its word 0x00000003 in CMD, which decodes to MUL, the command always completes: RESULT becomes gmul(OPA, OPB),
STATUS shows success with LAST_OPC 0x03, ERR_INFO is 0, PHASE is IDLE, and every other field of the state, memory and port
included, is unchanged. States R118. -/
def Obligations.MulWritesTheFieldProduct : Prop :=
  ∀ s : State, s.cmd = 0x00000003#32 → decode s.cmd = .command .mul ∧
    exec .mul s = .next (doneWith 0x03#8 { s with result := gmul s.opa s.opb })

/-- With 0x00000004 in CMD, DIV completes: for OPB ≠ 0 RESULT becomes gdiv(OPA, OPB) with success; for OPB = 0, whatever OPA
is, ERR is 0x31, ERR_INFO is 0 and RESULT is unchanged. Nothing else changes. States R119. -/
def Obligations.DivWritesTheQuotientOrRaisesDivZero : Prop :=
  ∀ s : State, s.cmd = 0x00000004#32 → decode s.cmd = .command .div ∧
    (s.opb ≠ 0x00#8 → exec .div s = .next (doneWith 0x04#8 { s with result := gdiv s.opa s.opb })) ∧
    (s.opb = 0x00#8 → exec .div s = .next (failedWith 0x04#8 0x31#8 0x0000#16 s))

/-- With 0x00000005 in CMD, INV completes: for OPA ≠ 0 RESULT becomes ginv(OPA) with success; for OPA = 0 ERR is 0x30,
ERR_INFO is 0 and RESULT is unchanged. OPB is not read: the outcome is the same whatever it holds. Nothing else changes.
States R120. -/
def Obligations.InvWritesTheInverseOrRaisesInvZero : Prop :=
  ∀ s : State, s.cmd = 0x00000005#32 → decode s.cmd = .command .inv ∧
    (s.opa ≠ 0x00#8 → ∀ b : Byte, exec .inv { s with opb := b } =
      .next (doneWith 0x05#8 { s with opb := b, result := ginv s.opa })) ∧
    (s.opa = 0x00#8 → ∀ b : Byte, exec .inv { s with opb := b } =
      .next (failedWith 0x05#8 0x30#8 0x0000#16 { s with opb := b }))

/-- Reading a byte's bits as the coefficients of a polynomial over GF(2), the polynomial of gmul(a, b) is the remainder of
the product of the polynomials of a and b on division by x^8+x^4+x^3+x+1, for all bytes a and b. States R111. -/
def Obligations.GmulIsThePolynomialProductModulo0x11B : Prop :=
  ∀ a b : Byte, bytePolynomial (gmul a b) = (bytePolynomial a * bytePolynomial b) %ₘ aesPolynomial

/-- For all bytes: gmul is commutative and associative and distributes over gadd; 0x01 is its identity; gmul(a, 0x00) =
0x00; and a product is 0x00 only when a factor is. States R122. -/
def Obligations.FieldMultiplicationLaws : Prop :=
  (∀ a b : Byte, gmul a b = gmul b a) ∧
  (∀ a b c : Byte, gmul (gmul a b) c = gmul a (gmul b c)) ∧
  (∀ a b c : Byte, gmul a (gadd b c) = gadd (gmul a b) (gmul a c)) ∧
  (∀ a : Byte, gmul a 0x01#8 = a ∧ gmul a 0x00#8 = 0x00#8) ∧
  (∀ a b : Byte, gmul a b = 0x00#8 → a = 0x00#8 ∨ b = 0x00#8)

/-- For all bytes: gadd is commutative and associative, 0x00 is its identity, gadd(a, a) = 0x00 and gsub(a, b) = gadd(a, b).
States R121. -/
def Obligations.FieldAdditionLaws : Prop :=
  (∀ a b : Byte, gadd a b = gadd b a) ∧ (∀ a b c : Byte, gadd (gadd a b) c = gadd a (gadd b c)) ∧
  (∀ a : Byte, gadd a 0x00#8 = a ∧ gadd 0x00#8 a = a ∧ gadd a a = 0x00#8) ∧ (∀ a b : Byte, gsub a b = gadd a b)

/-- For every a ≠ 0 the repeated squaring of the model gives the value gpow(a, 254), and gmul(a, b) = 0x01 holds exactly for
b = ginv(a). Nothing is said of ginv(0), which the rule does not define. States R114. -/
def Obligations.TheInverseIsThe254thPowerAndUnique : Prop :=
  ∀ a : Byte, a ≠ 0x00#8 → ginv a = gpow a 254 ∧ ∀ b : Byte, gmul a b = 0x01#8 ↔ b = ginv a

/-- For all a and all b ≠ 0: gdiv(gmul(a, b), b) = a, gmul(gdiv(a, b), b) = a, gdiv(a, b) = gmul(a, ginv(b)), and gdiv(b, b)
= 0x01. Rests on 40_field.md R115; 40_field.md R119. -/
def Obligations.DivisionUndoesMultiplication : Prop :=
  ∀ a b : Byte, b ≠ 0x00#8 →
    gdiv (gmul a b) b = a ∧ gmul (gdiv a b) b = a ∧ gdiv a b = gmul a (ginv b) ∧ gdiv b b = 0x01#8

/-- For every coefficient list and every x the Horner value equals the field sum, from 0x00, of gmul(c[d], gpow(x, d)) for d
= 0 to C-1; the recurrence r*x + c[d] from the highest degree gives it; the empty polynomial gives 0x00. States R140. -/
def Obligations.HornerIsTheSumOfCoefficientsTimesPowers : Prop :=
  (∀ (c : List Byte) (x : Byte), horner c x =
    (List.range c.length).foldl (fun acc d => gadd acc (gmul (c.getD d 0x00#8) (gpow x d))) 0x00#8) ∧
  (∀ x : Byte, horner [] x = 0x00#8) ∧
  (∀ (c : List Byte) (b x : Byte), horner (b :: c) x = gadd (gmul (horner c x) x) b)

/-- With 0x00000006 in CMD, EVAL always completes: RESULT becomes the Horner value at OPA of the COUNT coefficients stored
from COEF[0] on; STATUS shows success with LAST_OPC 0x06; nothing else changes, in memory or in any register. States R143.
-/
def Obligations.EvalWritesTheHornerValue : Prop :=
  ∀ s : State, s.cmd = 0x00000006#32 → decode s.cmd = .command .eval ∧
    exec .eval s = .next (doneWith 0x06#8
      { s with result := horner ((List.range s.count.toNat).map fun d => readByte s.mem (coefAddr d)) s.opa })

/-- For at most 255 indices: the check is OK exactly when no index is 0 and none repeats. If index j is the first that is 0,
it gives E_ZERO_INDEX with information j. If none is 0, j is the first index that repeats an earlier one and m the first
earlier position with it, it gives E_DUP_INDEX with j in bits [7:0] and m in bits [15:8]. The numeric codes are 0x24 and
0x25. States R141. -/
def Obligations.CheckIndicesReportsTheFirstBadIndex : Prop :=
  ∀ xs : List Byte, xs.length ≤ 255 →
    (checkIndices xs = none ↔ 0x00#8 ∉ xs ∧ xs.Nodup) ∧
    (∀ j, j < xs.length → xs.getD j 0x01#8 = 0x00#8 → (∀ k < j, xs.getD k 0x01#8 ≠ 0x00#8) →
      checkIndices xs = some (.zeroIndex, BitVec.ofNat 16 j)) ∧
    (∀ m j, m < j → j < xs.length → 0x00#8 ∉ xs → xs.getD m 0x00#8 = xs.getD j 0x00#8 →
      (∀ k < m, xs.getD k 0x00#8 ≠ xs.getD j 0x00#8) →
      (∀ j' < j, ∀ k < j', xs.getD k 0x00#8 ≠ xs.getD j' 0x00#8) →
      checkIndices xs = some (.dupIndex, BitVec.ofNat 16 (m * 256 + j))) ∧
    errorByte .zeroIndex = 0x24#8 ∧ errorByte .dupIndex = 0x25#8

/-- With 0x00000007 in CMD, INTERP0 completes: for COUNT < 2 with E_TOO_FEW; else, if check_indices on PX[0..COUNT-1] fails,
with ERR = 0x24 for E_ZERO_INDEX or 0x25 for E_DUP_INDEX and its information, and with no other code; else RESULT becomes
lagrange0 of the points (PX[j], PY[j]), j < COUNT, with success. Nothing else changes. States R145. -/
def Obligations.Interp0InterpolatesOrReportsItsFirstCheck : Prop :=
  ∀ s : State, s.cmd = 0x00000007#32 → decode s.cmd = .command .interp0 ∧
    (s.count.toNat < 2 → exec .interp0 s = .next (failedWith 0x07#8 0x20#8 0x0000#16 s)) ∧
    (2 ≤ s.count.toNat → ∀ code info,
      checkIndices ((List.range s.count.toNat).map fun j => readByte s.mem (pxAddr j)) = some (code, info) →
      (code = .zeroIndex ∧ exec .interp0 s = .next (failedWith 0x07#8 0x24#8 info s)) ∨
      (code = .dupIndex ∧ exec .interp0 s = .next (failedWith 0x07#8 0x25#8 info s))) ∧
    (2 ≤ s.count.toNat →
      checkIndices ((List.range s.count.toNat).map fun j => readByte s.mem (pxAddr j)) = none →
      exec .interp0 s = .next (doneWith 0x07#8 { s with
        result := lagrange0 ((List.range s.count.toNat).map fun j => readByte s.mem (pxAddr j))
          ((List.range s.count.toNat).map fun j => readByte s.mem (pyAddr j)) }))

/-- For any P ≥ 2 distinct nonzero x coordinates and any polynomial with at most P coefficients, lagrange0 of the points (x,
horner(p, x)) is the coefficient of degree 0. Rests on 41_polynomial.md R146 (1). -/
def Obligations.InterpolationRecoversTheConstantTerm : Prop :=
  ∀ xs p : List Byte, 2 ≤ xs.length → xs.Nodup → 0x00#8 ∉ xs → p.length ≤ xs.length →
    lagrange0 xs (xs.map (horner p)) = p.getD 0 0x00#8

/-- For any list of at least two points with distinct nonzero x coordinates and any permutation of it, lagrange0 gives the
same byte. Rests on 41_polynomial.md R146 (2). -/
def Obligations.InterpolationDoesNotDependOnTheOrderOfPoints : Prop :=
  ∀ ps qs : List (Byte × Byte), ps.Perm qs → 2 ≤ ps.length → (ps.map Prod.fst).Nodup → 0x00#8 ∉ ps.map Prod.fst →
    lagrange0 (ps.map Prod.fst) (ps.map Prod.snd) = lagrange0 (qs.map Prod.fst) (qs.map Prod.snd)

/-- With 0x00000008 in CMD, LMAX ≤ 65534, the checks passing and L*(K-1) bytes in the port, SPLIT completes with success.
For every x = 1..N: SLOT[x-1][0] = x, SLEN[x-1] = L+1, and for i < L SLOT[x-1][1+i] is the Horner value at x of the secret
byte i followed by draws i*(K-1) to i*(K-1)+K-2. COUNT becomes N, the port loses the bytes drawn, and every other byte and
field is unchanged. States R162, R163, R164. -/
def Obligations.SplitWritesEveryShareAndNothingElse : Prop :=
  ∀ s : State, s.cmd = 0x00000008#32 → s.lmax ≤ Config.lmaxGreatest → SplitReady s →
    decode s.cmd = .command .split ∧ ∃ m : Memory,
      exec .split s = .next (doneWith 0x08#8 { s with
        mem := m
        count := s.paramN.extractLsb' 0 8
        port := s.port.drop (s.secretLen.toNat * (s.paramK.toNat - 1)) }) ∧
      (∀ x, 1 ≤ x → x ≤ s.paramN.toNat →
        readByte m (slotAddr (x - 1) 0) = BitVec.ofNat 8 x ∧
        (slen m (x - 1)).toNat = s.secretLen.toNat + 1 ∧
        ∀ i < s.secretLen.toNat, readByte m (slotAddr (x - 1) (1 + i)) =
          horner (readByte s.mem (secretAddr i) ::
            (s.port.drop (i * (s.paramK.toNat - 1))).take (s.paramK.toNat - 1)) (BitVec.ofNat 8 x)) ∧
      (∀ a, (∀ x, 1 ≤ x → x ≤ s.paramN.toNat →
          (a < slotAddr (x - 1) 0 ∨ slotAddr (x - 1) s.secretLen.toNat < a) ∧
          a ≠ slenAddr (x - 1) ∧ a ≠ slenAddr (x - 1) + 1) →
        readByte m a = readByte s.mem a)

/-- With 0x00000008 in CMD: L = 0 gives 0x10; else K < 2 gives 0x11; else N < K gives 0x12; else N > 255 gives 0x13; else L
> LMAX gives 0x14; each with ERR_INFO = 0, no draw and no other write. A BUSY state in which none of the five holds ends
with no error code. States R161. -/
def Obligations.SplitReportsItsFirstFailingCheck : Prop :=
  ∀ s : State, s.cmd = 0x00000008#32 →
    (s.secretLen.toNat = 0 → exec .split s = .next (failedWith 0x08#8 0x10#8 0x0000#16 s)) ∧
    (s.secretLen.toNat ≠ 0 → s.paramK.toNat < 2 → exec .split s = .next (failedWith 0x08#8 0x11#8 0x0000#16 s)) ∧
    (s.secretLen.toNat ≠ 0 → 2 ≤ s.paramK.toNat → s.paramN.toNat < s.paramK.toNat →
      exec .split s = .next (failedWith 0x08#8 0x12#8 0x0000#16 s)) ∧
    (s.secretLen.toNat ≠ 0 → 2 ≤ s.paramK.toNat → s.paramK.toNat ≤ s.paramN.toNat → 255 < s.paramN.toNat →
      exec .split s = .next (failedWith 0x08#8 0x13#8 0x0000#16 s)) ∧
    (s.secretLen.toNat ≠ 0 → 2 ≤ s.paramK.toNat → s.paramK.toNat ≤ s.paramN.toNat → s.paramN.toNat ≤ 255 →
      s.lmax < s.secretLen.toNat → exec .split s = .next (failedWith 0x08#8 0x14#8 0x0000#16 s)) ∧
    (s.secretLen.toNat ≠ 0 → 2 ≤ s.paramK.toNat → s.paramK.toNat ≤ s.paramN.toNat → s.paramN.toNat ≤ 255 →
      s.secretLen.toNat ≤ s.lmax → s.phase = .busy → ∀ code info t, exec .split s = .next t →
      t ≠ failedWith 0x08#8 code info s)

/-- While BUSY with 0x00000008 in CMD, the checks passing and fewer than L*(K-1) bytes in the port, the engine's move
changes nothing but the schedule, so SPLIT stays BUSY with no completion. A hard reset gives PHASE = IDLE with DONE = 0.
Whichever agent moves, the unit is afterwards as before with at most IRQ_EN changed, still BUSY, or in its reset state: only
a reset ends the command. States R252. -/
def Obligations.SplitIsHeldWhileItsDrawsAreMissing : Prop :=
  ∀ (s : State) (rest : List Move), s.phase = .busy → s.cmd = 0x00000008#32 →
    1 ≤ s.secretLen.toNat → s.secretLen.toNat ≤ s.lmax → 2 ≤ s.paramK.toNat → s.paramK.toNat ≤ s.paramN.toNat →
    s.paramN.toNat ≤ 255 → s.port.length < s.secretLen.toNat * (s.paramK.toNat - 1) →
    step { s with schedule := .engine :: rest } = .next { s with schedule := rest } ∧
    (∃ t, step { s with schedule := .rst :: rest } = .next t ∧ t.phase = .idle ∧ t.status.done = false) ∧
    ∀ t, step s = .next t →
      (t.phase = .busy ∧ unitPart t = unitPart { s with irqEn := t.irqEn }) ∨ unitPart t = unitPart (resetUnit s)

/-- With 0x00000009 in CMD and the checks passing on shares of S bytes, COMBINE completes with success: for i ≤ S-2
SECRET[i] is lagrange0 over the COUNT points (SLOT[j][0], SLOT[j][1+i]); SECRET_LEN becomes S-1; every other byte and field
is unchanged. States R168. -/
def Obligations.CombineRecoversEveryPayloadPosition : Prop :=
  ∀ (s : State) (len : Half), s.cmd = 0x00000009#32 → CombineReady len s →
    decode s.cmd = .command .combine ∧ ∃ m : Memory,
      exec .combine s = .next (doneWith 0x09#8 { s with mem := m, secretLen := BitVec.ofNat 16 (len.toNat - 1) }) ∧
      (∀ i < len.toNat - 1, readByte m (secretAddr i) =
        lagrange0 ((List.range s.count.toNat).map fun j => readByte s.mem (slotAddr j 0))
          ((List.range s.count.toNat).map fun j => readByte s.mem (slotAddr j (1 + i)))) ∧
      (∀ a, a < secretAddr 0 ∨ secretAddr (len.toNat - 1) ≤ a → readByte m a = readByte s.mem a)

/-- With 0x00000009 in CMD: COUNT < 2 gives 0x20; else the first slot j whose length differs from slot 0's gives 0x21 with
POS_A = j; else length < 2 gives 0x22; else length > LMAX+1 gives 0x23; else what check_indices reports on
SLOT[0..COUNT-1][0], 0x24 for E_ZERO_INDEX or 0x25 for E_DUP_INDEX with its information. Each writes STATUS and ERR_INFO
only. Rests on 42_sharing.md R166; 42_sharing.md R167; 60_exceptions.md R202. -/
def Obligations.CombineReportsItsFirstFailingCheck : Prop :=
  ∀ s : State, s.cmd = 0x00000009#32 →
    (s.count.toNat < 2 → exec .combine s = .next (failedWith 0x09#8 0x20#8 0x0000#16 s)) ∧
    (2 ≤ s.count.toNat → ∀ j < s.count.toNat, slen s.mem j ≠ slen s.mem 0 →
      (∀ k < j, slen s.mem k = slen s.mem 0) →
      exec .combine s = .next (failedWith 0x09#8 0x21#8 (BitVec.ofNat 16 j) s)) ∧
    (2 ≤ s.count.toNat → (∀ j < s.count.toNat, slen s.mem j = slen s.mem 0) →
      ((slen s.mem 0).toNat < 2 → exec .combine s = .next (failedWith 0x09#8 0x22#8 0x0000#16 s)) ∧
      (2 ≤ (slen s.mem 0).toNat → s.lmax + 1 < (slen s.mem 0).toNat →
        exec .combine s = .next (failedWith 0x09#8 0x23#8 0x0000#16 s)) ∧
      (2 ≤ (slen s.mem 0).toNat → (slen s.mem 0).toNat ≤ s.lmax + 1 → ∀ code info,
        checkIndices ((List.range s.count.toNat).map fun j => readByte s.mem (slotAddr j 0)) = some (code, info) →
        (code = .zeroIndex ∧ exec .combine s = .next (failedWith 0x09#8 0x24#8 info s)) ∨
        (code = .dupIndex ∧ exec .combine s = .next (failedWith 0x09#8 0x25#8 info s))))

/-- With 0x0000000A in CMD, ZEROIZE always completes with success: every buffer byte reads 0x00, OPA, OPB, RESULT, COUNT,
PARAM and SECRET_LEN are 0, ERR_INFO is 0, and every other field is unchanged, CTRL and CMD among them. States R170. -/
def Obligations.ZeroizeClearsBuffersAndOperands : Prop :=
  ∀ s : State, s.cmd = 0x0000000A#32 → decode s.cmd = .command .zeroize ∧ ∃ m : Memory,
    exec .zeroize s = .next (doneWith 0x0A#8 { s with
      mem := m, opa := 0x00#8, opb := 0x00#8, result := 0x00#8, count := 0x00#8, paramK := 0x0000#16, paramN := 0x0000#16,
      secretLen := 0x0000#16 }) ∧ ∀ a, readByte m a = 0x00#8

/-- Let a ready SPLIT give t. In any state u with OPA = x, COUNT = K and COEF holding secret byte i and its K-1 draws, 1 ≤ x
≤ N and i < L, EVAL completes with RESULT equal to the byte SLOT[x-1][1+i] of t. States R144. -/
def Obligations.EvalGivesTheByteSplitWrites : Prop :=
  ∀ (s t u : State) (x i : Nat), s.lmax ≤ Config.lmaxGreatest → SplitReady s → exec .split s = .next t →
    1 ≤ x → x ≤ s.paramN.toNat → i < s.secretLen.toNat → u.opa = BitVec.ofNat 8 x → u.count.toNat = s.paramK.toNat →
    (∀ d < s.paramK.toNat, readByte u.mem (coefAddr d) =
      (readByte s.mem (secretAddr i) ::
        (s.port.drop (i * (s.paramK.toNat - 1))).take (s.paramK.toNat - 1)).getD d 0x00#8) →
    ∃ v, exec .eval u = .next v ∧ v.result = readByte t.mem (slotAddr (x - 1) (1 + i))

/-- Take LMAX ≤ 65534, a ready SPLIT in any state, whatever its secret and draws. It completes. Take any distinct share
indices xs with K ≤ K' ≤ N of them, and any state u with COUNT = K' and the same LMAX whose slot j holds the L+1 bytes of
share xs[j] and SLEN[j] = L+1. Then COMBINE of u completes without error, SECRET_LEN is L and SECRET[i] is the original
secret byte for every i < L. States R171. -/
def Obligations.CombineOfAnyKSharesRecoversTheSecret : Prop :=
  ∀ s : State, s.lmax ≤ Config.lmaxGreatest → SplitReady s → ∃ t, exec .split s = .next t ∧
    ∀ (xs : List Nat) (u : State), xs.Nodup → (∀ x ∈ xs, 1 ≤ x ∧ x ≤ s.paramN.toNat) →
      s.paramK.toNat ≤ xs.length → u.count.toNat = xs.length → u.lmax = s.lmax →
      (∀ j < xs.length, (slen u.mem j).toNat = s.secretLen.toNat + 1 ∧
        ∀ b ≤ s.secretLen.toNat, readByte u.mem (slotAddr j b) = readByte t.mem (slotAddr (xs.getD j 0 - 1) b)) →
      ∃ v, exec .combine u = .next v ∧ v.status.err = 0x00#8 ∧ v.secretLen = s.secretLen ∧
        ∀ i < s.secretLen.toNat, readByte v.mem (secretAddr i) = readByte s.mem (secretAddr i)

/-- For every command run in a BUSY state: if it ends IDLE with ERRF = 1, the state is the one before with only STATUS,
ERR_INFO and PHASE changed; RESULT, COUNT, SECRET_LEN, every buffer byte and the random-byte port are as they were. States
R201. -/
def Obligations.AFailedCommandWritesOnlyStatusAndErrInfo : Prop :=
  ∀ (i : Instr) (s t : State), s.phase = .busy → exec i s = .next t → t.phase = .idle → t.status.errf = true →
    t = { s with status := t.status, errInfo := t.errInfo, phase := .idle }

/-- For every command run in a BUSY state: if it ends with an error, then with any other bytes in the random-byte port it
ends with the same code and the same ERR_INFO, and draws none of them. States R204. -/
def Obligations.AnErrorDoesNotDependOnTheDraws : Prop :=
  ∀ (i : Instr) (s t : State) (bytes : List Byte), s.phase = .busy → exec i s = .next t → t.phase = .idle →
    t.status.errf = true → exec i { s with port := bytes } = .next { t with port := bytes }

/-- INTERP0 and COMBINE end in no state with code 0x30 or 0x31; and whenever check_indices passes on a list of indices,
every divisor gsub(xs[j], xs[m]) with j ≠ m is nonzero. Rests on 42_sharing.md R169 (1); 60_exceptions.md R203. -/
def Obligations.InterpolationRaisesNoDomainError : Prop :=
  (∀ s t : State, exec .interp0 s = .next t ∨ exec .combine s = .next t →
    t.status.err ≠ 0x30#8 ∧ t.status.err ≠ 0x31#8) ∧
  (∀ xs : List Byte, checkIndices xs = none → ∀ j m, j < xs.length → m < xs.length → j ≠ m →
    gsub (xs.getD j 0x00#8) (xs.getD m 0x00#8) ≠ 0x00#8)

/-- For every command that gives a next state: CTRL, CMD, LMAX and BASE are unchanged; and unless it is ZEROIZE, OPA, OPB
and PARAM and every byte of COEF, POINT_X and POINT_Y are unchanged. Rests on 10_state.md R26; 10_state.md R27; 10_state.md
R30; 10_state.md R35; 10_state.md R36; 10_state.md R37; 10_state.md R46; 20_memory.md R81. -/
def Obligations.OnlyZeroizeWritesOperandRegistersAndOperandBuffers : Prop :=
  ∀ (i : Instr) (s t : State), exec i s = .next t →
    t.irqEn = s.irqEn ∧ t.cmd = s.cmd ∧ t.lmax = s.lmax ∧ t.base = s.base ∧
    (i ≠ .zeroize → t.opa = s.opa ∧ t.opb = s.opb ∧ t.paramK = s.paramK ∧ t.paramN = s.paramN ∧
      ∀ k < 256, readByte t.mem (coefAddr k) = readByte s.mem (coefAddr k) ∧
        readByte t.mem (pxAddr k) = readByte s.mem (pxAddr k) ∧ readByte t.mem (pyAddr k) = readByte s.mem (pyAddr k))

/-- For every command that gives a next state the port is unchanged, unless it is a SPLIT whose checks pass and whose draws
have come, which takes exactly the first L*(K-1) bytes. No host read shows what the port holds. When the port is the
scheduled mover, the byte the platform supplies goes to the end of the port's list and nothing else changes. That the port
is a list of supplied bytes is the model's choice (log 2). Rests on 10_state.md R44; 42_sharing.md R160; log 2. -/
def Obligations.OnlySplitDrawsRandomBytes : Prop :=
  (∀ (i : Instr) (s t : State), exec i s = .next t → t.port = s.port ∨
    (i = .split ∧ splitCheck s = none ∧ s.secretLen.toNat * (s.paramK.toNat - 1) ≤ s.port.length ∧
      t.port = s.port.drop (s.secretLen.toNat * (s.paramK.toNat - 1)))) ∧
  (∀ (s : State) (off n : Nat) (bytes : List Byte), (memRead off n { s with port := bytes }).1 = (memRead off n s).1) ∧
  (∀ (s : State) (b : Byte) (rest : List Move), s.schedule = .rng b :: rest →
    step s = .next { s with schedule := rest, port := s.port ++ [b] })

/-- If a command takes s to t, then with any other host, schedule, order of moves, BASE and free-value counters it takes s
to t with those same replacements: registers, buffers, STATUS and draws come out the same. Rests on 10_state.md R50;
20_memory.md R61; 30_encoding.md R97. -/
def Obligations.ACommandDependsOnlyOnTheUnitAndItsDraws : Prop :=
  ∀ (i : Instr) (s t : State) (h : HostAgent) (sch : List Move) (o : Order) (base : Word) (j k : Nat),
    exec i s = .next t →
    exec i { s with host := h, schedule := sch, order := o, base := base, freeMoves := j, freeReads := k } =
      .next { t with host := h, schedule := sch, order := o, base := base, freeMoves := j, freeReads := k }

/-- For LMAX ≤ 65534 an access of n bytes at an offset is well-placed exactly when n is 1, 2 or 4, the offset is a multiple
of n, and the access lies whole in REGS with n = 4, or whole in COEF, POINT_X, POINT_Y, SHARE_LEN, the LMAX bytes of SECRET,
or the LMAX+1 bytes of one of the 255 slots, at the offsets of the map. States R62. -/
def Obligations.TheWindowMapIsTheSpecsMap : Prop :=
  ∀ lmax off n : Nat, lmax ≤ Config.lmaxGreatest →
    (wellPlaced lmax off n = true ↔ (n = 1 ∨ n = 2 ∨ n = 4) ∧ off % n = 0 ∧
      ((n = 4 ∧ off + n ≤ 0x100) ∨ (0x1000 ≤ off ∧ off + n ≤ 0x1100) ∨ (0x2000 ≤ off ∧ off + n ≤ 0x2100) ∨
        (0x2100 ≤ off ∧ off + n ≤ 0x2200) ∨ (0x3000 ≤ off ∧ off + n ≤ 0x3400) ∨
        (0x10000 ≤ off ∧ off + n ≤ 0x10000 + lmax) ∨
        ∃ j < 255, 0x1000000 + j * 0x10000 ≤ off ∧ off + n ≤ 0x1000000 + j * 0x10000 + lmax + 1))

/-- A read or write that is not well-placed is answered with a bus error; so is a write other than to CTRL while BUSY; no
other access is. Whenever the answer is a bus error the state is exactly as before. States R66. -/
def Obligations.ABusErrorChangesNothing : Prop :=
  ∀ (s : State) (off n : Nat) (v : Word),
    ((memRead off n s).1 = .busError ↔ wellPlaced s.lmax off n = false) ∧
    ((memWrite off n v s).1 = .busError ↔
      wellPlaced s.lmax off n = false ∨ (s.phase = .busy ∧ ¬(off = 0x04 ∧ n = 4))) ∧
    ((memRead off n s).1 = .busError → (memRead off n s).2 = s) ∧
    ((memWrite off n v s).1 = .busError → (memWrite off n v s).2 = s)

/-- In a BUSY state a write of n bytes at an offset that is not the 4-byte write at 0x04 is answered with a bus error and
changes nothing. The 4-byte write to CTRL is answered OK: with bit 1 = 0 it sets IRQ_EN from bit 0 and changes nothing else;
with bit 1 = 1 it resets the unit. States R250. -/
def Obligations.WhileBusyOnlyCtrlCanBeWritten : Prop :=
  ∀ (s : State) (off n : Nat) (v : Word), s.phase = .busy →
    (¬(off = 0x04 ∧ n = 4) → memWrite off n v s = (.busError, s)) ∧
    (v.getLsbD 1 = false → memWrite 0x04 4 v s = (.ok, { s with irqEn := v.getLsbD 0 })) ∧
    (v.getLsbD 1 = true → memWrite 0x04 4 v s = (.ok, resetUnit s))

/-- After any read every field of the state, the unit's and the outside agents', is as before, except at most the model's
free-value counter (the model's choice, log 3); while IDLE the state after a read is exactly the state before, so the same
read gives the same answer again. Rests on 20_memory.md R64; 20_memory.md R71; log 3. -/
def Obligations.ReadsHaveNoSideEffects : Prop :=
  ∀ (s : State) (off n : Nat),
    (memRead off n s).2 = { s with freeReads := (memRead off n s).2.freeReads } ∧
    (s.phase = .idle → (memRead off n s).2 = s)

/-- In a BUSY state 4-byte reads at 0x00, 0x04, 0x08, 0x0C and 0x2C give the exact register values and change nothing; every
other well-placed read is answered with data that is the next free value, of which nothing is said, and changes only the
free-value counter. That the value is Config.busyRead at a counter that goes up by one is the model's choice for the rule's
free draw (log 3, DESIGN CHOICE). Rests on 20_memory.md R72; log 3. -/
def Obligations.BusyReadsOfTheFiveRegistersAreExact : Prop :=
  ∀ s : State, s.phase = .busy →
    memRead 0x00 4 s = (.data 0x47463031#32, s) ∧ memRead 0x04 4 s = (.data (ctrlWord s.irqEn), s) ∧
    memRead 0x08 4 s = (.data (statusWord s.status), s) ∧ memRead 0x0C 4 s = (.data s.cmd, s) ∧
    memRead 0x2C 4 s = (.data (capsWord s.lmax), s) ∧
    ∀ off n, wellPlaced s.lmax off n = true → off ∉ [0x00, 0x04, 0x08, 0x0C, 0x2C] →
      memRead off n s = (.data (lowBytes n (Config.busyRead s.freeReads)), { s with freeReads := s.freeReads + 1 })

/-- In an IDLE state with LMAX < 65536, 4-byte reads give: ID 0x47463031; CTRL the IRQ_EN bit; STATUS with BUSY, DONE, ERRF,
ERR and LAST_OPC at bits 0, 1, 2, [15:8], [23:16]; CMD; OPA, OPB, RESULT and COUNT zero-extended; PARAM as N above K;
SECRET_LEN and ERR_INFO zero-extended; CAPS 0x01FF0000 + LMAX; and 0 at each reserved offset 0x30 to 0xFC. Reads change
nothing. Rests on 10_state.md R22; 10_state.md R23; 10_state.md R24; 10_state.md R26; 10_state.md R30; 10_state.md R33;
10_state.md R34; 20_memory.md R64. -/
def Obligations.IdleReadsShowTheRegisters : Prop :=
  ∀ s : State, s.phase = .idle → s.lmax < 65536 →
    (∃ w, memRead 0x00 4 s = (.data w, s) ∧ w.toNat = 0x47463031) ∧
    (∃ w, memRead 0x04 4 s = (.data w, s) ∧ w.toNat = s.irqEn.toNat) ∧
    (∃ w, memRead 0x08 4 s = (.data w, s) ∧ w.toNat = s.status.busy.toNat + 2 * s.status.done.toNat +
      4 * s.status.errf.toNat + 0x100 * s.status.err.toNat + 0x10000 * s.status.lastOpc.toNat) ∧
    (∃ w, memRead 0x0C 4 s = (.data w, s) ∧ w = s.cmd) ∧
    (∃ w, memRead 0x10 4 s = (.data w, s) ∧ w.toNat = s.opa.toNat) ∧
    (∃ w, memRead 0x14 4 s = (.data w, s) ∧ w.toNat = s.opb.toNat) ∧
    (∃ w, memRead 0x18 4 s = (.data w, s) ∧ w.toNat = s.result.toNat) ∧
    (∃ w, memRead 0x1C 4 s = (.data w, s) ∧ w.toNat = s.count.toNat) ∧
    (∃ w, memRead 0x20 4 s = (.data w, s) ∧ w.toNat = s.paramK.toNat + 0x10000 * s.paramN.toNat) ∧
    (∃ w, memRead 0x24 4 s = (.data w, s) ∧ w.toNat = s.secretLen.toNat) ∧
    (∃ w, memRead 0x28 4 s = (.data w, s) ∧ w.toNat = s.errInfo.toNat) ∧
    (∃ w, memRead 0x2C 4 s = (.data w, s) ∧ w.toNat = 0x01FF0000 + s.lmax) ∧
    (∀ k, 12 ≤ k → k < 64 → memRead (4 * k) 4 s = (.data 0x00000000#32, s))

/-- In an IDLE state 4-byte writes are answered OK: OPA, OPB and COUNT take bits [7:0]; PARAM takes K from [15:0] and N from
[31:16]; SECRET_LEN takes [15:0]; a write to ID, RESULT, ERR_INFO, CAPS or a reserved offset changes nothing; a write to
STATUS clears DONE exactly when bit 1 is 1. No other field changes. Rests on 10_state.md R22; 10_state.md R24; 10_state.md
R26; 10_state.md R27; 10_state.md R28; 10_state.md R29; 10_state.md R30; 10_state.md R31; 10_state.md R32; 10_state.md R33;
10_state.md R34. -/
def Obligations.IdleRegisterWritesKeepOnlyTheirFields : Prop :=
  ∀ (s : State) (v : Word), s.phase = .idle →
    memWrite 0x10 4 v s = (.ok, { s with opa := v.extractLsb' 0 8 }) ∧
    memWrite 0x14 4 v s = (.ok, { s with opb := v.extractLsb' 0 8 }) ∧
    memWrite 0x1C 4 v s = (.ok, { s with count := v.extractLsb' 0 8 }) ∧
    memWrite 0x20 4 v s = (.ok, { s with paramK := v.extractLsb' 0 16, paramN := v.extractLsb' 16 16 }) ∧
    memWrite 0x24 4 v s = (.ok, { s with secretLen := v.extractLsb' 0 16 }) ∧
    memWrite 0x00 4 v s = (.ok, s) ∧ memWrite 0x18 4 v s = (.ok, s) ∧ memWrite 0x28 4 v s = (.ok, s) ∧
    memWrite 0x2C 4 v s = (.ok, s) ∧ (∀ k, 12 ≤ k → k < 64 → memWrite (4 * k) 4 v s = (.ok, s)) ∧
    (v.getLsbD 1 = true → memWrite 0x08 4 v s = (.ok, { s with status := { s.status with done := false } })) ∧
    (v.getLsbD 1 = false → memWrite 0x08 4 v s = (.ok, s))

/-- In an IDLE state a well-placed write outside REGS is answered OK and changes memory only: byte k of the data is stored
at offset + k, except that bytes +2 and +3 of a SHARE_LEN entry are discarded; every byte outside the access, and every
discarded place, is as before. Rests on 20_memory.md R65; 20_memory.md R67; 20_memory.md R73. -/
def Obligations.ABufferWriteStoresItsBytesAndNoOthers : Prop :=
  ∀ (s : State) (off n : Nat) (v : Word), s.phase = .idle → wellPlaced s.lmax off n = true →
    regionOf s.lmax off ≠ .regs → ∃ m : Memory, memWrite off n v s = (.ok, { s with mem := m }) ∧
      (∀ k < n, ¬(0x3000 ≤ off + k ∧ off + k < 0x3400 ∧ 2 ≤ (off + k) % 4) →
        readByte m (off + k) = v.extractLsb' (8 * k) 8) ∧
      (∀ a, (a < off ∨ off + n ≤ a ∨ (0x3000 ≤ a ∧ a < 0x3400 ∧ 2 ≤ a % 4)) → readByte m a = readByte s.mem a)

/-- In an IDLE state a well-placed read outside REGS gives a word whose byte k, for k < n, is the byte stored at offset + k,
or 0x00 at bytes +2 and +3 of a SHARE_LEN entry, and whose higher bytes are 0; the state is unchanged. Rests on 20_memory.md
R64; 20_memory.md R67; 20_memory.md R73. -/
def Obligations.ABufferReadIsLittleEndian : Prop :=
  ∀ (s : State) (off n : Nat), s.phase = .idle → wellPlaced s.lmax off n = true → regionOf s.lmax off ≠ .regs →
    ∃ w : Word, memRead off n s = (.data w, s) ∧ ∀ k < 4, w.extractLsb' (8 * k) 8 =
      if k < n ∧ ¬(0x3000 ≤ off + k ∧ off + k < 0x3400 ∧ 2 ≤ (off + k) % 4) then readByte s.mem (off + k) else 0x00#8

/-- In an IDLE state a 4-byte write to CMD is answered OK, stores the word in CMD, clears DONE, sets BUSY and PHASE = BUSY
and changes nothing else: ERR, ERRF, LAST_OPC and ERR_INFO keep the previous values. In a BUSY state it is a bus error and
changes nothing. States R96. -/
def Obligations.AcceptanceStoresTheWordAndSetsBusy : Prop :=
  ∀ (s : State) (w : Word),
    (s.phase = .idle → memWrite 0x0C 4 w s =
      (.ok, { s with cmd := w, status := { s.status with done := false, busy := true }, phase := .busy })) ∧
    (s.phase = .busy → memWrite 0x0C 4 w s = (.busError, s))

/-- If a step takes an IDLE state to a BUSY one, then the host moved (it is first in the schedule, or nothing is scheduled
and, where the order is free, the free move is the host's), its program was running, its line was a 4-byte write at window
offset 0x0C, that write is its last transaction and was answered OK, and CMD holds the word it wrote. That the host may move
when nothing is scheduled, and the record of the last transaction, are the model's (logs 1 and 6). Rests on 60_exceptions.md
R225; 30_encoding.md R96; log 1; log 6. -/
def Obligations.OnlyACmdWriteStartsACommand : Prop :=
  ∀ s t : State, s.phase = .idle → step s = .next t → t.phase = .busy →
    ((s.schedule = [] ∧ (s.order = .free → Config.freeMove s.freeMoves = .host)) ∨ ∃ rest, s.schedule = .host :: rest) ∧
    s.host.outcome = .running ∧
    ∃ v, s.host.program[s.host.line]? = some (.write 4 0x0000000C#32 v) ∧ t.cmd = hostVal s.host.vars v ∧
      t.host.last = some (.write 4 0x0000000C#32 (hostVal s.host.vars v), .ok)

/-- If PHASE = BUSY and the host moves, the unit's part of the state is afterwards as before with at most IRQ_EN changed, or
it is the reset state. Whichever agent moves, if the unit is still BUSY after a step, its part of the state is as before
with at most IRQ_EN changed. So every register and buffer the completion step reads holds the value it had at acceptance.
States R42. -/
def Obligations.AHostMoveWhileBusyKeepsTheOperands : Prop :=
  (∀ (s t : State) (rest : List Move), s.phase = .busy → s.schedule = .host :: rest → step s = .next t →
    (∃ b, unitPart t = unitPart { s with irqEn := b }) ∨ unitPart t = unitPart (resetUnit s)) ∧
  (∀ s t : State, s.phase = .busy → step s = .next t → t.phase = .busy →
    unitPart t = unitPart { s with irqEn := t.irqEn })

/-- In one step, ERR, ERRF, LAST_OPC and ERR_INFO all keep their values, unless the step is a completion (from BUSY to IDLE
with DONE = 1) or leaves the unit in its reset state. Rests on 10_state.md R24; 60_exceptions.md R212. -/
def Obligations.ErrChangesOnlyAtCompletionOrReset : Prop :=
  ∀ s t : State, step s = .next t →
    (t.status.err = s.status.err ∧ t.status.errf = s.status.errf ∧ t.status.lastOpc = s.status.lastOpc ∧
      t.errInfo = s.errInfo) ∨
    (s.phase = .busy ∧ t.phase = .idle ∧ t.status.done = true) ∨
    unitPart t = unitPart (resetUnit s)

/-- irq is 1 exactly when DONE and IRQ_EN are 1. After the engine completes a command, irq equals IRQ_EN. In an IDLE state
writing 1 to CTRL makes irq equal DONE; ACK and a CMD write make irq 0; so does a reset. States R45. -/
def Obligations.IrqIsDoneAndIrqEnable : Prop :=
  (∀ s : State, irq s = true ↔ s.status.done = true ∧ s.irqEn = true) ∧
  (∀ (i : Instr) (s t : State), s.phase = .busy → exec i s = .next t → t.phase = .idle → irq t = s.irqEn) ∧
  (∀ s : State, s.phase = .idle → irq (memWrite 0x04 4 0x00000001#32 s).2 = s.status.done ∧
    irq (memWrite 0x08 4 0x00000002#32 s).2 = false ∧ ∀ w, irq (memWrite 0x0C 4 w s).2 = false) ∧
  (∀ s : State, irq (resetUnit s) = false)

/-- When rst is the scheduled move, the next state has every register, flag and buffer byte 0 and PHASE = IDLE, whatever the
state was, BUSY or IDLE; irq is 0; LMAX, BASE, the random-byte port, the host, the rest of the schedule and the order of
moves after it are as before (the model's own fields, logs 1, 2 and 6). Rests on 70_reset_and_hazards.md R240;
70_reset_and_hazards.md R243; 10_state.md R49; log 1; log 2; log 6. -/
def Obligations.HardResetPutsTheUnitAtItsResetValues : Prop :=
  ∀ (s : State) (rest : List Move), s.schedule = .rst :: rest → ∃ t, step s = .next t ∧
    t = { lmax := s.lmax, base := s.base, irqEn := false,
          status := { busy := false, done := false, errf := false, err := 0x00#8, lastOpc := 0x00#8 },
          phase := .idle, cmd := 0x00000000#32, opa := 0x00#8, opb := 0x00#8, result := 0x00#8, count := 0x00#8,
          paramK := 0x0000#16, paramN := 0x0000#16, secretLen := 0x0000#16, errInfo := 0x0000#16, mem := t.mem,
          port := s.port, host := s.host, schedule := rest, order := s.order,
          freeMoves := s.freeMoves, freeReads := s.freeReads } ∧
    (∀ a, readByte t.mem a = 0x00#8) ∧ irq t = false

/-- In any phase a 4-byte write to CTRL with bit 1 = 1 is answered OK and leaves the state that a hard reset leaves; CTRL
then reads 0x00000000, whatever the other bits of the write. A CTRL write with bit 1 = 0 sets IRQ_EN from bit 0 and changes
nothing else. States R241. -/
def Obligations.SoftResetIsAHardReset : Prop :=
  ∀ (s : State) (v : Word) (rest : List Move),
    (v.getLsbD 1 = true → ∃ t, memWrite 0x04 4 v { s with schedule := rest } = (.ok, t) ∧
      step { s with schedule := .rst :: rest } = .next t ∧ memRead 0x04 4 t = (.data 0x00000000#32, t)) ∧
    (v.getLsbD 1 = false → memWrite 0x04 4 v s = (.ok, { s with irqEn := v.getLsbD 0 }))

/-- From a BUSY state, after rst: DONE = 0, irq = 0, PHASE = IDLE and the port is as it was; an engine move scheduled right
after changes nothing but the schedule, so the command's completion step never happens. States R242. -/
def Obligations.AResetWhileBusyEndsTheCommandUnreported : Prop :=
  ∀ (s : State) (rest : List Move), s.phase = .busy → ∃ t, step { s with schedule := .rst :: .engine :: rest } = .next t ∧
    t.phase = .idle ∧ t.status.done = false ∧ irq t = false ∧ t.port = s.port ∧
    step t = .next { t with schedule := rest }

/-- In State.reset: CTRL, STATUS, CMD, OPA, OPB, RESULT, COUNT, PARAM, SECRET_LEN and ERR_INFO are 0, PHASE is IDLE, irq is
0, every buffer byte reads 0x00 and every SLEN entry is 0; CAPS reads 0x01FF0400, with the reference LMAX of 1024 that the
model takes (log 4). Rests on 10_state.md R49; 00_scope.md R7; log 4. -/
def Obligations.StateResetHoldsTheResetValues : Prop :=
  ctrlWord State.reset.irqEn = 0x00000000#32 ∧ statusWord State.reset.status = 0x00000000#32 ∧
  State.reset.cmd = 0x00000000#32 ∧ State.reset.opa = 0x00#8 ∧ State.reset.opb = 0x00#8 ∧ State.reset.result = 0x00#8 ∧
  State.reset.count = 0x00#8 ∧ State.reset.paramK = 0x0000#16 ∧ State.reset.paramN = 0x0000#16 ∧
  State.reset.secretLen = 0x0000#16 ∧ State.reset.errInfo = 0x0000#16 ∧ State.reset.phase = .idle ∧
  irq State.reset = false ∧ (∀ a, readByte State.reset.mem a = 0x00#8) ∧ (∀ j, slen State.reset.mem j = 0x0000#16) ∧
  capsWord State.reset.lmax = 0x01FF0400#32

/-- In the reset state of any unit, each of the ten commands completes; COMBINE ends with E_TOO_FEW, SPLIT with
E_SPLIT_EMPTY, INV with E_INV_ZERO, and MUL succeeds with RESULT = 0x00. States R244. -/
def Obligations.EveryCommandHasDefinedInputsAfterReset : Prop :=
  ∀ s : State, (∀ i, ∃ t, exec i (accept (encode i) (resetUnit s)) = .next t ∧ t.phase = .idle) ∧
    (∃ t, exec .combine (resetUnit s) = .next t ∧ t.status.err = 0x20#8) ∧
    (∃ t, exec .split (resetUnit s) = .next t ∧ t.status.err = 0x10#8) ∧
    (∃ t, exec .inv (resetUnit s) = .next t ∧ t.status.err = 0x30#8) ∧
    (∃ t, exec .mul (resetUnit s) = .next t ∧ t.status.err = 0x00#8 ∧ t.result = 0x00#8)

/-- The invariant Inv holds in State.reset, with the reference LMAX of 1024 the model takes (log 4). Rests on 10_state.md
R49; log 4. -/
def Obligations.TheResetStateMeetsTheInvariant : Prop :=
  Inv State.reset

/-- From every state that meets Inv (legal LMAX; memory canonical and listing only mapped storage; PHASE = BUSY exactly when
STATUS.BUSY; never BUSY and DONE together; ERRF exactly when ERR ≠ 0; ERR a code of the table; ERR_INFO 0 unless ERR names a
position), a step of any agent gives a state that meets it. Rests on 10_state.md R24; 10_state.md R41; 10_state.md R48;
20_memory.md R61; 20_memory.md R73; 60_exceptions.md R200; 60_exceptions.md R202. -/
def Obligations.EveryStepKeepsTheInvariant : Prop :=
  ∀ s t : State, Inv s → step s = .next t → Inv t

/-- From every state whose host program is well-formed, every number of steps, under every schedule and every order after
it, ends in a next state: no command, bus error or reset stops the machine. A branch to a label the program lacks is the one
fault, and it is the model's own (log 7). Rests on 30_encoding.md R101; 20_memory.md R66; log 7. -/
def Obligations.WellFormedHostProgramsNeverStop : Prop :=
  (∀ s : State, WellFormed.hostProgram s.host.program = true → NeverStops s) ∧
  (∀ (s : State) (l : Nat), l ∉ WellFormed.labels s.host.program → hostLine (.jump l) s = .fault .undefinedLabel)

/-- The host's scheduled move runs the line its running program stands at; a host that has halted or met a bus error issues
nothing. For ANDI, ADDI, SHRI, BEQI, BNEI, J, a label and HALT: the variable named takes the value given and the others
stay, the host goes on to the next line or to its label's line, and every field of the unit is as before. HALT ends the
program. The model's choices here: past its last line the host issues nothing and a label line is a step of its own (log 6),
the first of two equal labels counts (log 7), and SHRI by 32 or more gives 0 (log 15). Rests on 30_encoding.md R101;
10_state.md R20; log 6; log 7; log 15. -/
def Obligations.HostLinesComputeAndBranch : Prop :=
  (∀ (v : HostVars) (d h : HostVar) (x : Word), getVar (setVar d x v) h = if h = d then x else getVar v h) ∧
  (∀ (s : State) (rest : List Move), s.schedule = .host :: rest →
    (∀ op, s.host.outcome = .running → s.host.program[s.host.line]? = some op →
      step s = hostLine op { s with schedule := rest }) ∧
    (s.host.outcome = .running → s.host.program[s.host.line]? = none → step s = .next { s with schedule := rest }) ∧
    (s.host.outcome = .halted ∨ s.host.outcome = .buserr → step s = .next { s with schedule := rest })) ∧
  ∀ (s : State) (d m : HostVar) (imm : Word) (k l line : Nat),
    hostLine (.andi d m imm) s = .next { s with host := { s.host with
      vars := setVar d (getVar s.host.vars m &&& imm) s.host.vars, line := s.host.line + 1 } } ∧
    hostLine (.addi d m imm) s = .next { s with host := { s.host with
      vars := setVar d (getVar s.host.vars m + imm) s.host.vars, line := s.host.line + 1 } } ∧
    hostLine (.shri d m k) s = .next { s with host := { s.host with
      vars := setVar d (getVar s.host.vars m >>> k) s.host.vars, line := s.host.line + 1 } } ∧
    hostLine (.label l) s = .next { s with host := { s.host with line := s.host.line + 1 } } ∧
    hostLine .halt s = .next { s with host := { s.host with outcome := .halted } } ∧
    (labelLine s.host.program l = some line →
      hostLine (.jump l) s = .next { s with host := { s.host with line := line } } ∧
      hostLine (.beqi m imm l) s = .next { s with host := { s.host with
        line := if getVar s.host.vars m = imm then line else s.host.line + 1 } } ∧
      hostLine (.bnei m imm l) s = .next { s with host := { s.host with
        line := if getVar s.host.vars m = imm then s.host.line + 1 else line } })

/-- For every BASE: a read line that gets data puts it in its variable and goes on; a write line answered OK leaves the unit
as the bus write at that offset does and goes on; a line answered with a bus error stops the program with outcome BUSERR
where it stands, with the variables and the unit unchanged. A variable read after a write to it gives the value written, the
others theirs; a write's operand is its immediate or its variable's value. That the window is found by BASE modulo 2^32, and
that the host stays at the line of a bus error, are the model's (logs 5 and 6). Rests on 30_encoding.md R101; 20_memory.md
R61; 20_memory.md R66; log 5; log 6. -/
def Obligations.HostTransactionsReachTheWindowWhereverItStands : Prop :=
  (∀ (v : HostVars) (d h : HostVar) (x : Word), getVar (setVar d x v) h = if h = d then x else getVar v h) ∧
  (∀ (v : HostVars) (h : HostVar) (x : Word), hostVal v (.imm x) = x ∧ hostVal v (.var h) = getVar v h) ∧
  ∀ (s : State) (n : Nat) (off : Word) (h : HostVar) (v : HostVal),
    (∃ t, hostLine (.read n h off) s = .next t ∧ unitPart t = unitPart s ∧
      (∀ x, (memRead off.toNat n s).1 = .data x → t.host.vars = setVar h x s.host.vars ∧ t.host.line = s.host.line + 1 ∧
        t.host.outcome = s.host.outcome) ∧
      ((memRead off.toNat n s).1 = .busError →
        t.host.vars = s.host.vars ∧ t.host.line = s.host.line ∧ t.host.outcome = .buserr)) ∧
    (∃ t, hostLine (.write n off v) s = .next t ∧ t.host.vars = s.host.vars ∧
      unitPart t = unitPart (memWrite off.toNat n (hostVal s.host.vars v) s).2 ∧
      ((memWrite off.toNat n (hostVal s.host.vars v) s).1 = .ok →
        t.host.line = s.host.line + 1 ∧ t.host.outcome = s.host.outcome) ∧
      ((memWrite off.toNat n (hostVal s.host.vars v) s).1 = .busError →
        t.host.line = s.host.line ∧ t.host.outcome = .buserr ∧ unitPart t = unitPart s))
end

