-- ==== Sys2Proof/Laws/Field.lean ====
section
/-! SUPPORT. The linear structure of the field functions: `xtime` and `gmul` distribute over XOR, and a claim closed under XOR
holds of every byte once it holds of the eight powers of x. -/

namespace Sys2Proof.Machine

/-- Every byte is a XOR of the powers of x: a claim closed under XOR needs only 0 and those. -/
theorem byte_induction {P : Byte → Prop} (zero : P 0x00#8) (basis : ∀ i < 8, P (0x01#8 <<< i))
    (xor : ∀ a b, P a → P b → P (a ^^^ b)) (a : Byte) : P a := by
  have bit (i : Nat) (hi : i < 8) : P (if a.getLsbD i then 0x01#8 <<< i else 0x00#8) := by
    split
    · exact basis i hi
    · exact zero
  have e : a = (if a.getLsbD 0 then 0x01#8 <<< 0 else 0x00#8) ^^^ (if a.getLsbD 1 then 0x01#8 <<< 1 else 0x00#8) ^^^
      (if a.getLsbD 2 then 0x01#8 <<< 2 else 0x00#8) ^^^ (if a.getLsbD 3 then 0x01#8 <<< 3 else 0x00#8) ^^^
      (if a.getLsbD 4 then 0x01#8 <<< 4 else 0x00#8) ^^^ (if a.getLsbD 5 then 0x01#8 <<< 5 else 0x00#8) ^^^
      (if a.getLsbD 6 then 0x01#8 <<< 6 else 0x00#8) ^^^ (if a.getLsbD 7 then 0x01#8 <<< 7 else 0x00#8) := by
    clear bit; revert a; decide +kernel
  rw [e]
  repeat' apply xor
  all_goals exact bit _ (by decide)

/-- `xtime` without the ninth bit. -/
theorem xtime_eq (a : Byte) : xtime a = (a <<< 1) ^^^ (if a.getLsbD 7 then 0x1B#8 else 0x00#8) := by
  revert a; decide +kernel

/-- `xtime` is linear. -/
theorem xtime_xor (a b : Byte) : xtime (a ^^^ b) = xtime a ^^^ xtime b := by
  simp only [xtime_eq, BitVec.shiftLeft_xor_distrib, BitVec.getLsbD_xor]
  cases a.getLsbD 7 <;> cases b.getLsbD 7 <;> simp <;> ac_nf
  simp

@[simp] theorem xtime_zero : xtime 0x00#8 = 0x00#8 := by decide

/-- The i-th summand of the product: a * x^i when bit i of b is set. -/
def gmulTerm (a b : Byte) (i : Nat) : Byte := if b.getLsbD i then xtime^[i] a else 0x00#8

/-- The product as the sum of its eight summands. -/
theorem gmul_eq_terms (a b : Byte) :
    gmul a b = gmulTerm a b 0 ^^^ gmulTerm a b 1 ^^^ gmulTerm a b 2 ^^^ gmulTerm a b 3 ^^^ gmulTerm a b 4 ^^^
      gmulTerm a b 5 ^^^ gmulTerm a b 6 ^^^ gmulTerm a b 7 := by
  have pass (c : Bool) (x y : Byte) : (if c then x ^^^ y else x) = x ^^^ (if c then y else 0x00#8) := by
    cases c <;> simp
  simp only [gmul, List.range, List.range.loop, List.foldl, gmulPass, pass, gmulTerm, Function.iterate_succ,
    Function.iterate_zero, Function.comp, id, BitVec.zero_xor]

theorem xtime_iterate_xor (i : Nat) (a b : Byte) : xtime^[i] (a ^^^ b) = xtime^[i] a ^^^ xtime^[i] b := by
  induction i generalizing a b with
  | zero => rfl
  | succ i ih => simp only [Function.iterate_succ, Function.comp, xtime_xor, ih]

theorem gmulTerm_xor_left (a c b : Byte) (i : Nat) : gmulTerm (a ^^^ c) b i = gmulTerm a b i ^^^ gmulTerm c b i := by
  simp only [gmulTerm, xtime_iterate_xor]
  split <;> simp

theorem gmulTerm_xor_right (a b c : Byte) (i : Nat) : gmulTerm a (b ^^^ c) i = gmulTerm a b i ^^^ gmulTerm a c i := by
  simp only [gmulTerm, BitVec.getLsbD_xor]
  cases b.getLsbD i <;> cases c.getLsbD i <;> simp

/-- `gmul` is linear in its first operand. -/
theorem gmul_xor_left (a c b : Byte) : gmul (a ^^^ c) b = gmul a b ^^^ gmul c b := by
  simp only [gmul_eq_terms, gmulTerm_xor_left]
  ac_rfl

/-- `gmul` is linear in its second operand. -/
theorem gmul_xor_right (a b c : Byte) : gmul a (b ^^^ c) = gmul a b ^^^ gmul a c := by
  simp only [gmul_eq_terms, gmulTerm_xor_right]
  ac_rfl

/-- Multiplying by a power of x is shifting that often. -/
theorem gmul_basis (a : Byte) {i : Nat} (h : i < 8) : gmul a (0x01#8 <<< i) = xtime^[i] a := by
  have bit (j : Nat) (hj : j < 8) : gmulTerm a (0x01#8 <<< i) j = if j = i then xtime^[i] a else 0x00#8 := by
    have : (0x01#8 <<< i).getLsbD j = decide (j = i) := by
      have all : ∀ i < 8, ∀ j < 8, (0x01#8 <<< i).getLsbD j = decide (j = i) := by decide
      exact all i h j hj
    rw [gmulTerm, this]
    by_cases e : j = i
    · simp [e]
    · simp [e]
  rw [gmul_eq_terms, bit 0 (by decide), bit 1 (by decide), bit 2 (by decide), bit 3 (by decide), bit 4 (by decide),
    bit 5 (by decide), bit 6 (by decide), bit 7 (by decide)]
  interval_cases i <;> simp

end Sys2Proof.Machine
end

