-- ==== Sys2Proof/Laws/Memory.lean ====
section
/-! SUPPORT. Laws of the buffers: what a byte reads as after a block is stored, that every store keeps the canonical form, and
that it lists nothing outside the block. Later proofs cite these and never unfold `writeBlock`. -/

namespace Sys2Proof.Machine

/-! ### Reading -/

@[simp] theorem readByte_nil (a : Nat) : readByte [] a = unlistedByte := rfl

theorem readByte_of_forall_ne {m : Memory} {a : Nat} (h : ∀ c ∈ m, c.1 ≠ a) : readByte m a = unlistedByte := by
  induction m with
  | nil => rfl
  | cons c m ih =>
    rw [readByte, if_neg (h c (by simp)), ih fun d hd => h d (by simp [hd])]

theorem readByte_append_of_ne {xs ys : Memory} {a : Nat} (h : ∀ c ∈ xs, c.1 ≠ a) :
    readByte (xs ++ ys) a = readByte ys a := by
  induction xs with
  | nil => rfl
  | cons c xs ih =>
    rw [List.cons_append, readByte, if_neg (h c (by simp)), ih fun d hd => h d (by simp [hd])]

theorem readByte_append_of_ne_right {xs ys : Memory} {a : Nat} (h : ∀ c ∈ ys, c.1 ≠ a) :
    readByte (xs ++ ys) a = readByte xs a := by
  induction xs with
  | nil => exact readByte_of_forall_ne h
  | cons c xs ih => simp only [List.cons_append, readByte, ih]

theorem readByte_filter (p : Nat → Bool) (m : Memory) {a : Nat} (h : p a = true) :
    readByte (m.filter fun c => p c.1) a = readByte m a := by
  induction m with
  | nil => rfl
  | cons c m ih =>
    rw [List.filter_cons]
    by_cases hc : c.1 = a
    · simp [hc, h, readByte]
    · split <;> simp [readByte, hc, ih]

/-! ### The cells of a block -/

theorem mem_blockCells {bs : List Byte} {a : Nat} {c : Host.Cell} (h : c ∈ blockCells a bs) :
    a ≤ c.1 ∧ c.1 < a + bs.length ∧ c.2 ≠ unlistedByte := by
  induction bs generalizing a with
  | nil => simp [blockCells] at h
  | cons b bs ih =>
    rw [blockCells] at h
    split at h
    · have := ih h
      simp only [List.length_cons]
      exact ⟨by omega, by omega, this.2.2⟩
    · rcases List.mem_cons.1 h with rfl | h
      · exact ⟨le_rfl, by simp, by assumption⟩
      · have := ih h
        simp only [List.length_cons]
        exact ⟨by omega, by omega, this.2.2⟩

theorem blockCells_pairwise (bs : List Byte) (a : Nat) : (blockCells a bs).Pairwise fun c d => c.1 < d.1 := by
  induction bs generalizing a with
  | nil => simp [blockCells]
  | cons b bs ih =>
    rw [blockCells]
    split
    · exact ih _
    · refine List.pairwise_cons.2 ⟨fun c hc => ?_, ih _⟩
      have := (mem_blockCells hc).1
      show a < c.1
      omega

theorem readByte_blockCells (bs : List Byte) (a k : Nat) :
    readByte (blockCells a bs) (a + k) = bs.getD k unlistedByte := by
  induction bs generalizing a k with
  | nil => rfl
  | cons b bs ih =>
    have tail (k : Nat) : readByte (blockCells (a + 1) bs) (a + (k + 1)) = bs.getD k unlistedByte := by
      rw [← ih (a + 1) k]; congr 1; omega
    rw [blockCells]
    cases k with
    | zero =>
      split
      · rename_i hb
        rw [readByte_of_forall_ne fun c hc => by have := (mem_blockCells hc).1; omega]
        simp [hb]
      · simp [readByte]
    | succ k =>
      split
      · simpa using tail k
      · rw [readByte, if_neg (show a ≠ a + (k + 1) by omega)]
        simpa using tail k

/-! ### Storing a block -/

/-- Inside the block, the block's own bytes. -/
theorem readByte_writeBlock_inside (m : Memory) (a : Nat) (bs : List Byte) {k : Nat} (h : k < bs.length) :
    readByte (writeBlock m a bs) (a + k) = bs.getD k unlistedByte := by
  rw [writeBlock, readByte_append_of_ne_right, readByte_append_of_ne, readByte_blockCells]
  · intro c hc
    have : c.1 < a := by simpa using (List.mem_filter.1 hc).2
    omega
  · intro c hc
    have : a + bs.length ≤ c.1 := by simpa using (List.mem_filter.1 hc).2
    omega

/-- Outside the block, every byte reads as before. -/
theorem readByte_writeBlock_outside (m : Memory) (a : Nat) (bs : List Byte) {x : Nat} (h : x < a ∨ a + bs.length ≤ x) :
    readByte (writeBlock m a bs) x = readByte m x := by
  have block : ∀ c ∈ blockCells a bs, c.1 ≠ x := fun c hc => by
    have := mem_blockCells hc
    omega
  rcases h with h | h
  · rw [writeBlock, readByte_append_of_ne_right, readByte_append_of_ne_right block,
      readByte_filter (fun y => decide (y < a)) m (by simpa using h)]
    intro c hc
    have : a + bs.length ≤ c.1 := by simpa using (List.mem_filter.1 hc).2
    omega
  · rw [writeBlock, readByte_append_of_ne, readByte_filter (fun y => decide (a + bs.length ≤ y)) m (by simpa using h)]
    intro c hc
    rcases List.mem_append.1 hc with hc | hc
    · have : c.1 < a := by simpa using (List.mem_filter.1 hc).2
      omega
    · exact block c hc

/-- The whole law of a stored block, in one equation. -/
theorem readByte_writeBlock (m : Memory) (a : Nat) (bs : List Byte) (x : Nat) :
    readByte (writeBlock m a bs) x =
      if a ≤ x ∧ x < a + bs.length then bs.getD (x - a) unlistedByte else readByte m x := by
  split
  · rename_i h
    have := readByte_writeBlock_inside m a bs (k := x - a) (by omega)
    rwa [show a + (x - a) = x by omega] at this
  · exact readByte_writeBlock_outside m a bs (by omega)

/-- A stored block lists only old cells and bytes of the block. -/
theorem mem_writeBlock {m : Memory} {a : Nat} {bs : List Byte} {c : Host.Cell} (h : c ∈ writeBlock m a bs) :
    c ∈ m ∨ (a ≤ c.1 ∧ c.1 < a + bs.length) := by
  rw [writeBlock, List.mem_append, List.mem_append] at h
  rcases h with (h | h) | h
  · exact .inl (List.mem_filter.1 h).1
  · have := mem_blockCells h
    exact .inr ⟨this.1, this.2.1⟩
  · exact .inl (List.mem_filter.1 h).1

/-- Storing a block keeps the canonical form. -/
theorem memoryWf_writeBlock {m : Memory} (h : memoryWf m) (a : Nat) (bs : List Byte) : memoryWf (writeBlock m a bs) := by
  constructor
  · rw [writeBlock, List.pairwise_append, List.pairwise_append]
    refine ⟨⟨h.1.filter _, blockCells_pairwise _ _, ?_⟩, h.1.filter _, ?_⟩
    · intro c hc d hd
      have h1 : c.1 < a := by simpa using (List.mem_filter.1 hc).2
      have h2 := (mem_blockCells hd).1
      omega
    · intro c hc d hd
      have h2 : a + bs.length ≤ d.1 := by simpa using (List.mem_filter.1 hd).2
      rcases List.mem_append.1 hc with hc | hc
      · have h1 : c.1 < a := by simpa using (List.mem_filter.1 hc).2
        omega
      · have h1 := (mem_blockCells hc).2.1
        omega
  · intro c hc
    rw [writeBlock, List.mem_append, List.mem_append] at hc
    rcases hc with (hc | hc) | hc
    · exact h.2 c (List.mem_filter.1 hc).1
    · exact (mem_blockCells hc).2.2
    · exact h.2 c (List.mem_filter.1 hc).1

theorem memoryWf_nil : memoryWf [] := by simp [memoryWf]

/-! ### Host stores -/

theorem memoryWf_storeByte {m : Memory} (h : memoryWf m) (a : Nat) (b : Byte) : memoryWf (storeByte m a b) := by
  rw [storeByte]; split
  · exact h
  · exact memoryWf_writeBlock h _ _

theorem memoryWf_storeBytes {m : Memory} (h : memoryWf m) (a : Nat) (bs : List Byte) : memoryWf (storeBytes m a bs) := by
  induction bs generalizing m a with
  | nil => exact h
  | cons b bs ih => exact ih (memoryWf_storeByte h a b) (a + 1)

theorem readByte_storeByte (m : Memory) (a : Nat) (b : Byte) (x : Nat) :
    readByte (storeByte m a b) x = if x = a ∧ slenUpper a = false then b else readByte m x := by
  rw [storeByte]
  by_cases hu : slenUpper a = true
  · simp [hu]
  · rw [if_neg hu, readByte_writeBlock]
    by_cases hx : x = a
    · simp [hx, hu]
    · rw [if_neg (by simp; omega), if_neg (by simp [hx])]

/-- What a byte reads as after a host store of bytes: the byte stored there, unless the place is no storage. -/
theorem readByte_storeBytes (m : Memory) (a : Nat) (bs : List Byte) (x : Nat) :
    readByte (storeBytes m a bs) x =
      if a ≤ x ∧ x < a + bs.length ∧ slenUpper x = false then bs.getD (x - a) unlistedByte else readByte m x := by
  induction bs generalizing m a with
  | nil => rw [if_neg (by simp; omega)]; rfl
  | cons b bs ih =>
    rw [storeBytes, ih, readByte_storeByte]
    by_cases hx : x = a
    · subst hx
      rw [if_neg (by omega)]
      by_cases hu : slenUpper x = true
      · simp [hu]
      · simp [hu]
    · rw [if_neg (c := x = a ∧ _) (by simp [hx])]
      by_cases h : a ≤ x ∧ x < a + (b :: bs).length ∧ slenUpper x = false
      · rw [if_pos h, if_pos ⟨by omega, by simp only [List.length_cons] at h; omega, h.2.2⟩,
          show x - a = (x - (a + 1)) + 1 by omega, List.getD_cons_succ]
      · rw [if_neg h, if_neg]
        rintro ⟨h1, h2, h3⟩
        exact h ⟨by omega, by simp only [List.length_cons]; omega, h3⟩

theorem mem_storeBytes {m : Memory} {a : Nat} {bs : List Byte} {c : Host.Cell} (h : c ∈ storeBytes m a bs) :
    c ∈ m ∨ (a ≤ c.1 ∧ c.1 < a + bs.length ∧ slenUpper c.1 = false) := by
  induction bs generalizing m a with
  | nil => exact .inl h
  | cons b bs ih =>
    simp only [List.length_cons]
    rcases ih h with h | h
    · rw [storeByte] at h
      split at h
      · exact .inl h
      · rename_i hu
        rcases mem_writeBlock h with h | h
        · exact .inl h
        · have hc : c.1 = a := by simp at h; omega
          exact .inr ⟨by omega, by omega, by simpa [hc] using hu⟩
    · exact .inr ⟨by omega, by omega, h.2.2⟩

/-! ### SLEN entries -/

theorem highHalf_append_lowHalf (v : Half) : (highHalf v ++ lowHalf v : BitVec 16) = v := by
  apply BitVec.eq_of_getLsbD_eq
  intro i hi
  simp only [highHalf, lowHalf, BitVec.getLsbD_append, BitVec.getLsbD_extractLsb']
  by_cases h : i < 8
  · simp [h]
  · simp only [h, if_false, Nat.reduceAdd]
    simp [show i - 8 < 8 by omega, show 8 + (i - 8) = i by omega]

/-- A stored SLEN entry reads back. -/
theorem slen_setSlen_same (m : Memory) (j : Nat) (v : Half) : slen (setSlen m j v) j = v := by
  have h0 := readByte_writeBlock_inside m (slenAddr j) [lowHalf v, highHalf v] (k := 0) (by simp)
  have h1 := readByte_writeBlock_inside m (slenAddr j) [lowHalf v, highHalf v] (k := 1) (by simp)
  simp only [Nat.add_zero] at h0
  rw [slen, setSlen, h0, h1]
  simpa using highHalf_append_lowHalf v

/-- An entry reads as before when its two bytes do. -/
theorem slen_congr {m n : Memory} {j : Nat} (h0 : readByte n (slenAddr j) = readByte m (slenAddr j))
    (h1 : readByte n (slenAddr j + 1) = readByte m (slenAddr j + 1)) : slen n j = slen m j := by
  rw [slen, slen, h0, h1]

end Sys2Proof.Machine
end

