-- ==== Sys2Proof/Laws/State.lean ====
section
/-! SUPPORT. One lemma per field of State and per named update: what the field holds after it. All are true by rfl and simp
lemmas, so that no proof unfolds a record update. -/

namespace Sys2Proof.Machine

/-! ### After a completion (30_encoding.md rule R98) -/

@[simp] theorem finish_lmax (code : ErrorCode) (info : Half) (s : State) : (finish code info s).lmax = s.lmax := rfl
@[simp] theorem finish_base (code : ErrorCode) (info : Half) (s : State) : (finish code info s).base = s.base := rfl
@[simp] theorem finish_irqEn (code : ErrorCode) (info : Half) (s : State) : (finish code info s).irqEn = s.irqEn := rfl
@[simp] theorem finish_status (code : ErrorCode) (info : Half) (s : State) : (finish code info s).status = completedStatus (errorByte code) (opcOf s.cmd) := rfl
@[simp] theorem finish_phase (code : ErrorCode) (info : Half) (s : State) : (finish code info s).phase = .idle := rfl
@[simp] theorem finish_cmd (code : ErrorCode) (info : Half) (s : State) : (finish code info s).cmd = s.cmd := rfl
@[simp] theorem finish_opa (code : ErrorCode) (info : Half) (s : State) : (finish code info s).opa = s.opa := rfl
@[simp] theorem finish_opb (code : ErrorCode) (info : Half) (s : State) : (finish code info s).opb = s.opb := rfl
@[simp] theorem finish_result (code : ErrorCode) (info : Half) (s : State) : (finish code info s).result = s.result := rfl
@[simp] theorem finish_count (code : ErrorCode) (info : Half) (s : State) : (finish code info s).count = s.count := rfl
@[simp] theorem finish_paramK (code : ErrorCode) (info : Half) (s : State) : (finish code info s).paramK = s.paramK := rfl
@[simp] theorem finish_paramN (code : ErrorCode) (info : Half) (s : State) : (finish code info s).paramN = s.paramN := rfl
@[simp] theorem finish_secretLen (code : ErrorCode) (info : Half) (s : State) : (finish code info s).secretLen = s.secretLen := rfl
@[simp] theorem finish_errInfo (code : ErrorCode) (info : Half) (s : State) : (finish code info s).errInfo = info := rfl
@[simp] theorem finish_mem (code : ErrorCode) (info : Half) (s : State) : (finish code info s).mem = s.mem := rfl
@[simp] theorem finish_port (code : ErrorCode) (info : Half) (s : State) : (finish code info s).port = s.port := rfl
@[simp] theorem finish_host (code : ErrorCode) (info : Half) (s : State) : (finish code info s).host = s.host := rfl
@[simp] theorem finish_schedule (code : ErrorCode) (info : Half) (s : State) : (finish code info s).schedule = s.schedule := rfl
@[simp] theorem finish_order (code : ErrorCode) (info : Half) (s : State) : (finish code info s).order = s.order := rfl
@[simp] theorem finish_freeMoves (code : ErrorCode) (info : Half) (s : State) : (finish code info s).freeMoves = s.freeMoves := rfl
@[simp] theorem finish_freeReads (code : ErrorCode) (info : Half) (s : State) : (finish code info s).freeReads = s.freeReads := rfl

/-! ### After an acceptance (30_encoding.md rule R96) -/

@[simp] theorem accept_lmax (w : Word) (s : State) : (accept w s).lmax = s.lmax := rfl
@[simp] theorem accept_base (w : Word) (s : State) : (accept w s).base = s.base := rfl
@[simp] theorem accept_irqEn (w : Word) (s : State) : (accept w s).irqEn = s.irqEn := rfl
@[simp] theorem accept_status (w : Word) (s : State) : (accept w s).status = acceptedStatus s.status := rfl
@[simp] theorem accept_phase (w : Word) (s : State) : (accept w s).phase = .busy := rfl
@[simp] theorem accept_cmd (w : Word) (s : State) : (accept w s).cmd = w := rfl
@[simp] theorem accept_opa (w : Word) (s : State) : (accept w s).opa = s.opa := rfl
@[simp] theorem accept_opb (w : Word) (s : State) : (accept w s).opb = s.opb := rfl
@[simp] theorem accept_result (w : Word) (s : State) : (accept w s).result = s.result := rfl
@[simp] theorem accept_count (w : Word) (s : State) : (accept w s).count = s.count := rfl
@[simp] theorem accept_paramK (w : Word) (s : State) : (accept w s).paramK = s.paramK := rfl
@[simp] theorem accept_paramN (w : Word) (s : State) : (accept w s).paramN = s.paramN := rfl
@[simp] theorem accept_secretLen (w : Word) (s : State) : (accept w s).secretLen = s.secretLen := rfl
@[simp] theorem accept_errInfo (w : Word) (s : State) : (accept w s).errInfo = s.errInfo := rfl
@[simp] theorem accept_mem (w : Word) (s : State) : (accept w s).mem = s.mem := rfl
@[simp] theorem accept_port (w : Word) (s : State) : (accept w s).port = s.port := rfl
@[simp] theorem accept_host (w : Word) (s : State) : (accept w s).host = s.host := rfl
@[simp] theorem accept_schedule (w : Word) (s : State) : (accept w s).schedule = s.schedule := rfl
@[simp] theorem accept_order (w : Word) (s : State) : (accept w s).order = s.order := rfl
@[simp] theorem accept_freeMoves (w : Word) (s : State) : (accept w s).freeMoves = s.freeMoves := rfl
@[simp] theorem accept_freeReads (w : Word) (s : State) : (accept w s).freeReads = s.freeReads := rfl

/-! ### After an acknowledgement (10_state.md rule R24) -/

@[simp] theorem ackDone_lmax (s : State) : (ackDone s).lmax = s.lmax := rfl
@[simp] theorem ackDone_base (s : State) : (ackDone s).base = s.base := rfl
@[simp] theorem ackDone_irqEn (s : State) : (ackDone s).irqEn = s.irqEn := rfl
@[simp] theorem ackDone_status (s : State) : (ackDone s).status = { s.status with done := false } := rfl
@[simp] theorem ackDone_phase (s : State) : (ackDone s).phase = s.phase := rfl
@[simp] theorem ackDone_cmd (s : State) : (ackDone s).cmd = s.cmd := rfl
@[simp] theorem ackDone_opa (s : State) : (ackDone s).opa = s.opa := rfl
@[simp] theorem ackDone_opb (s : State) : (ackDone s).opb = s.opb := rfl
@[simp] theorem ackDone_result (s : State) : (ackDone s).result = s.result := rfl
@[simp] theorem ackDone_count (s : State) : (ackDone s).count = s.count := rfl
@[simp] theorem ackDone_paramK (s : State) : (ackDone s).paramK = s.paramK := rfl
@[simp] theorem ackDone_paramN (s : State) : (ackDone s).paramN = s.paramN := rfl
@[simp] theorem ackDone_secretLen (s : State) : (ackDone s).secretLen = s.secretLen := rfl
@[simp] theorem ackDone_errInfo (s : State) : (ackDone s).errInfo = s.errInfo := rfl
@[simp] theorem ackDone_mem (s : State) : (ackDone s).mem = s.mem := rfl
@[simp] theorem ackDone_port (s : State) : (ackDone s).port = s.port := rfl
@[simp] theorem ackDone_host (s : State) : (ackDone s).host = s.host := rfl
@[simp] theorem ackDone_schedule (s : State) : (ackDone s).schedule = s.schedule := rfl
@[simp] theorem ackDone_order (s : State) : (ackDone s).order = s.order := rfl
@[simp] theorem ackDone_freeMoves (s : State) : (ackDone s).freeMoves = s.freeMoves := rfl
@[simp] theorem ackDone_freeReads (s : State) : (ackDone s).freeReads = s.freeReads := rfl

/-! ### After a reset (70_reset_and_hazards.md rules R240 and R243) -/

@[simp] theorem resetUnit_lmax (s : State) : (resetUnit s).lmax = s.lmax := rfl
@[simp] theorem resetUnit_base (s : State) : (resetUnit s).base = s.base := rfl
@[simp] theorem resetUnit_irqEn (s : State) : (resetUnit s).irqEn = false := rfl
@[simp] theorem resetUnit_status (s : State) : (resetUnit s).status = Status.zero := rfl
@[simp] theorem resetUnit_phase (s : State) : (resetUnit s).phase = .idle := rfl
@[simp] theorem resetUnit_cmd (s : State) : (resetUnit s).cmd = 0#32 := rfl
@[simp] theorem resetUnit_opa (s : State) : (resetUnit s).opa = 0#8 := rfl
@[simp] theorem resetUnit_opb (s : State) : (resetUnit s).opb = 0#8 := rfl
@[simp] theorem resetUnit_result (s : State) : (resetUnit s).result = 0#8 := rfl
@[simp] theorem resetUnit_count (s : State) : (resetUnit s).count = 0#8 := rfl
@[simp] theorem resetUnit_paramK (s : State) : (resetUnit s).paramK = 0#16 := rfl
@[simp] theorem resetUnit_paramN (s : State) : (resetUnit s).paramN = 0#16 := rfl
@[simp] theorem resetUnit_secretLen (s : State) : (resetUnit s).secretLen = 0#16 := rfl
@[simp] theorem resetUnit_errInfo (s : State) : (resetUnit s).errInfo = 0#16 := rfl
@[simp] theorem resetUnit_mem (s : State) : (resetUnit s).mem = [] := rfl
@[simp] theorem resetUnit_port (s : State) : (resetUnit s).port = s.port := rfl
@[simp] theorem resetUnit_host (s : State) : (resetUnit s).host = s.host := rfl
@[simp] theorem resetUnit_schedule (s : State) : (resetUnit s).schedule = s.schedule := rfl
@[simp] theorem resetUnit_order (s : State) : (resetUnit s).order = s.order := rfl
@[simp] theorem resetUnit_freeMoves (s : State) : (resetUnit s).freeMoves = s.freeMoves := rfl
@[simp] theorem resetUnit_freeReads (s : State) : (resetUnit s).freeReads = s.freeReads := rfl

/-! ### After a scalar result (10_state.md rule R28) -/

@[simp] theorem setResult_lmax (v : Byte) (s : State) : (setResult v s).lmax = s.lmax := rfl
@[simp] theorem setResult_base (v : Byte) (s : State) : (setResult v s).base = s.base := rfl
@[simp] theorem setResult_irqEn (v : Byte) (s : State) : (setResult v s).irqEn = s.irqEn := rfl
@[simp] theorem setResult_status (v : Byte) (s : State) : (setResult v s).status = s.status := rfl
@[simp] theorem setResult_phase (v : Byte) (s : State) : (setResult v s).phase = s.phase := rfl
@[simp] theorem setResult_cmd (v : Byte) (s : State) : (setResult v s).cmd = s.cmd := rfl
@[simp] theorem setResult_opa (v : Byte) (s : State) : (setResult v s).opa = s.opa := rfl
@[simp] theorem setResult_opb (v : Byte) (s : State) : (setResult v s).opb = s.opb := rfl
@[simp] theorem setResult_result (v : Byte) (s : State) : (setResult v s).result = v := rfl
@[simp] theorem setResult_count (v : Byte) (s : State) : (setResult v s).count = s.count := rfl
@[simp] theorem setResult_paramK (v : Byte) (s : State) : (setResult v s).paramK = s.paramK := rfl
@[simp] theorem setResult_paramN (v : Byte) (s : State) : (setResult v s).paramN = s.paramN := rfl
@[simp] theorem setResult_secretLen (v : Byte) (s : State) : (setResult v s).secretLen = s.secretLen := rfl
@[simp] theorem setResult_errInfo (v : Byte) (s : State) : (setResult v s).errInfo = s.errInfo := rfl
@[simp] theorem setResult_mem (v : Byte) (s : State) : (setResult v s).mem = s.mem := rfl
@[simp] theorem setResult_port (v : Byte) (s : State) : (setResult v s).port = s.port := rfl
@[simp] theorem setResult_host (v : Byte) (s : State) : (setResult v s).host = s.host := rfl
@[simp] theorem setResult_schedule (v : Byte) (s : State) : (setResult v s).schedule = s.schedule := rfl
@[simp] theorem setResult_order (v : Byte) (s : State) : (setResult v s).order = s.order := rfl
@[simp] theorem setResult_freeMoves (v : Byte) (s : State) : (setResult v s).freeMoves = s.freeMoves := rfl
@[simp] theorem setResult_freeReads (v : Byte) (s : State) : (setResult v s).freeReads = s.freeReads := rfl

/-! ### After SPLIT's writes (42_sharing.md rules R160 and R164) -/

@[simp] theorem splitWrites_lmax (s : State) : (splitWrites s).lmax = s.lmax := rfl
@[simp] theorem splitWrites_base (s : State) : (splitWrites s).base = s.base := rfl
@[simp] theorem splitWrites_irqEn (s : State) : (splitWrites s).irqEn = s.irqEn := rfl
@[simp] theorem splitWrites_status (s : State) : (splitWrites s).status = s.status := rfl
@[simp] theorem splitWrites_phase (s : State) : (splitWrites s).phase = s.phase := rfl
@[simp] theorem splitWrites_cmd (s : State) : (splitWrites s).cmd = s.cmd := rfl
@[simp] theorem splitWrites_opa (s : State) : (splitWrites s).opa = s.opa := rfl
@[simp] theorem splitWrites_opb (s : State) : (splitWrites s).opb = s.opb := rfl
@[simp] theorem splitWrites_result (s : State) : (splitWrites s).result = s.result := rfl
@[simp] theorem splitWrites_count (s : State) : (splitWrites s).count = s.paramN.extractLsb' 0 8 := rfl
@[simp] theorem splitWrites_paramK (s : State) : (splitWrites s).paramK = s.paramK := rfl
@[simp] theorem splitWrites_paramN (s : State) : (splitWrites s).paramN = s.paramN := rfl
@[simp] theorem splitWrites_secretLen (s : State) : (splitWrites s).secretLen = s.secretLen := rfl
@[simp] theorem splitWrites_errInfo (s : State) : (splitWrites s).errInfo = s.errInfo := rfl
@[simp] theorem splitWrites_mem (s : State) : (splitWrites s).mem = writeShares (splitPolysOf s) (s.secretLen + 1#16) s.paramN.toNat s.mem := rfl
@[simp] theorem splitWrites_port (s : State) : (splitWrites s).port = s.port.drop (splitDraws s) := rfl
@[simp] theorem splitWrites_host (s : State) : (splitWrites s).host = s.host := rfl
@[simp] theorem splitWrites_schedule (s : State) : (splitWrites s).schedule = s.schedule := rfl
@[simp] theorem splitWrites_order (s : State) : (splitWrites s).order = s.order := rfl
@[simp] theorem splitWrites_freeMoves (s : State) : (splitWrites s).freeMoves = s.freeMoves := rfl
@[simp] theorem splitWrites_freeReads (s : State) : (splitWrites s).freeReads = s.freeReads := rfl

/-! ### After COMBINE's writes (42_sharing.md rules R166 and R168) -/

@[simp] theorem combineWrites_lmax (s : State) : (combineWrites s).lmax = s.lmax := rfl
@[simp] theorem combineWrites_base (s : State) : (combineWrites s).base = s.base := rfl
@[simp] theorem combineWrites_irqEn (s : State) : (combineWrites s).irqEn = s.irqEn := rfl
@[simp] theorem combineWrites_status (s : State) : (combineWrites s).status = s.status := rfl
@[simp] theorem combineWrites_phase (s : State) : (combineWrites s).phase = s.phase := rfl
@[simp] theorem combineWrites_cmd (s : State) : (combineWrites s).cmd = s.cmd := rfl
@[simp] theorem combineWrites_opa (s : State) : (combineWrites s).opa = s.opa := rfl
@[simp] theorem combineWrites_opb (s : State) : (combineWrites s).opb = s.opb := rfl
@[simp] theorem combineWrites_result (s : State) : (combineWrites s).result = s.result := rfl
@[simp] theorem combineWrites_count (s : State) : (combineWrites s).count = s.count := rfl
@[simp] theorem combineWrites_paramK (s : State) : (combineWrites s).paramK = s.paramK := rfl
@[simp] theorem combineWrites_paramN (s : State) : (combineWrites s).paramN = s.paramN := rfl
@[simp] theorem combineWrites_secretLen (s : State) : (combineWrites s).secretLen = slen s.mem 0 - 1#16 := rfl
@[simp] theorem combineWrites_errInfo (s : State) : (combineWrites s).errInfo = s.errInfo := rfl
@[simp] theorem combineWrites_mem (s : State) : (combineWrites s).mem = writeBlock s.mem (secretAddr 0) (combinedSecret s) := rfl
@[simp] theorem combineWrites_port (s : State) : (combineWrites s).port = s.port := rfl
@[simp] theorem combineWrites_host (s : State) : (combineWrites s).host = s.host := rfl
@[simp] theorem combineWrites_schedule (s : State) : (combineWrites s).schedule = s.schedule := rfl
@[simp] theorem combineWrites_order (s : State) : (combineWrites s).order = s.order := rfl
@[simp] theorem combineWrites_freeMoves (s : State) : (combineWrites s).freeMoves = s.freeMoves := rfl
@[simp] theorem combineWrites_freeReads (s : State) : (combineWrites s).freeReads = s.freeReads := rfl

/-! ### After ZEROIZE's writes (42_sharing.md rule R170) -/

@[simp] theorem zeroizeWrites_lmax (s : State) : (zeroizeWrites s).lmax = s.lmax := rfl
@[simp] theorem zeroizeWrites_base (s : State) : (zeroizeWrites s).base = s.base := rfl
@[simp] theorem zeroizeWrites_irqEn (s : State) : (zeroizeWrites s).irqEn = s.irqEn := rfl
@[simp] theorem zeroizeWrites_status (s : State) : (zeroizeWrites s).status = s.status := rfl
@[simp] theorem zeroizeWrites_phase (s : State) : (zeroizeWrites s).phase = s.phase := rfl
@[simp] theorem zeroizeWrites_cmd (s : State) : (zeroizeWrites s).cmd = s.cmd := rfl
@[simp] theorem zeroizeWrites_opa (s : State) : (zeroizeWrites s).opa = 0#8 := rfl
@[simp] theorem zeroizeWrites_opb (s : State) : (zeroizeWrites s).opb = 0#8 := rfl
@[simp] theorem zeroizeWrites_result (s : State) : (zeroizeWrites s).result = 0#8 := rfl
@[simp] theorem zeroizeWrites_count (s : State) : (zeroizeWrites s).count = 0#8 := rfl
@[simp] theorem zeroizeWrites_paramK (s : State) : (zeroizeWrites s).paramK = 0#16 := rfl
@[simp] theorem zeroizeWrites_paramN (s : State) : (zeroizeWrites s).paramN = 0#16 := rfl
@[simp] theorem zeroizeWrites_secretLen (s : State) : (zeroizeWrites s).secretLen = 0#16 := rfl
@[simp] theorem zeroizeWrites_errInfo (s : State) : (zeroizeWrites s).errInfo = s.errInfo := rfl
@[simp] theorem zeroizeWrites_mem (s : State) : (zeroizeWrites s).mem = [] := rfl
@[simp] theorem zeroizeWrites_port (s : State) : (zeroizeWrites s).port = s.port := rfl
@[simp] theorem zeroizeWrites_host (s : State) : (zeroizeWrites s).host = s.host := rfl
@[simp] theorem zeroizeWrites_schedule (s : State) : (zeroizeWrites s).schedule = s.schedule := rfl
@[simp] theorem zeroizeWrites_order (s : State) : (zeroizeWrites s).order = s.order := rfl
@[simp] theorem zeroizeWrites_freeMoves (s : State) : (zeroizeWrites s).freeMoves = s.freeMoves := rfl
@[simp] theorem zeroizeWrites_freeReads (s : State) : (zeroizeWrites s).freeReads = s.freeReads := rfl

/-! ### After a byte supplied to the port (10_state.md rule R44) -/

@[simp] theorem supplyByte_lmax (b : Byte) (s : State) : (supplyByte b s).lmax = s.lmax := rfl
@[simp] theorem supplyByte_base (b : Byte) (s : State) : (supplyByte b s).base = s.base := rfl
@[simp] theorem supplyByte_irqEn (b : Byte) (s : State) : (supplyByte b s).irqEn = s.irqEn := rfl
@[simp] theorem supplyByte_status (b : Byte) (s : State) : (supplyByte b s).status = s.status := rfl
@[simp] theorem supplyByte_phase (b : Byte) (s : State) : (supplyByte b s).phase = s.phase := rfl
@[simp] theorem supplyByte_cmd (b : Byte) (s : State) : (supplyByte b s).cmd = s.cmd := rfl
@[simp] theorem supplyByte_opa (b : Byte) (s : State) : (supplyByte b s).opa = s.opa := rfl
@[simp] theorem supplyByte_opb (b : Byte) (s : State) : (supplyByte b s).opb = s.opb := rfl
@[simp] theorem supplyByte_result (b : Byte) (s : State) : (supplyByte b s).result = s.result := rfl
@[simp] theorem supplyByte_count (b : Byte) (s : State) : (supplyByte b s).count = s.count := rfl
@[simp] theorem supplyByte_paramK (b : Byte) (s : State) : (supplyByte b s).paramK = s.paramK := rfl
@[simp] theorem supplyByte_paramN (b : Byte) (s : State) : (supplyByte b s).paramN = s.paramN := rfl
@[simp] theorem supplyByte_secretLen (b : Byte) (s : State) : (supplyByte b s).secretLen = s.secretLen := rfl
@[simp] theorem supplyByte_errInfo (b : Byte) (s : State) : (supplyByte b s).errInfo = s.errInfo := rfl
@[simp] theorem supplyByte_mem (b : Byte) (s : State) : (supplyByte b s).mem = s.mem := rfl
@[simp] theorem supplyByte_port (b : Byte) (s : State) : (supplyByte b s).port = s.port ++ [b] := rfl
@[simp] theorem supplyByte_host (b : Byte) (s : State) : (supplyByte b s).host = s.host := rfl
@[simp] theorem supplyByte_schedule (b : Byte) (s : State) : (supplyByte b s).schedule = s.schedule := rfl
@[simp] theorem supplyByte_order (b : Byte) (s : State) : (supplyByte b s).order = s.order := rfl
@[simp] theorem supplyByte_freeMoves (b : Byte) (s : State) : (supplyByte b s).freeMoves = s.freeMoves := rfl
@[simp] theorem supplyByte_freeReads (b : Byte) (s : State) : (supplyByte b s).freeReads = s.freeReads := rfl

/-! ### After the choice of the mover (log 1) -/

@[simp] theorem takeTurn_lmax (s : State) : (takeTurn s).lmax = s.lmax := rfl
@[simp] theorem takeTurn_base (s : State) : (takeTurn s).base = s.base := rfl
@[simp] theorem takeTurn_irqEn (s : State) : (takeTurn s).irqEn = s.irqEn := rfl
@[simp] theorem takeTurn_status (s : State) : (takeTurn s).status = s.status := rfl
@[simp] theorem takeTurn_phase (s : State) : (takeTurn s).phase = s.phase := rfl
@[simp] theorem takeTurn_cmd (s : State) : (takeTurn s).cmd = s.cmd := rfl
@[simp] theorem takeTurn_opa (s : State) : (takeTurn s).opa = s.opa := rfl
@[simp] theorem takeTurn_opb (s : State) : (takeTurn s).opb = s.opb := rfl
@[simp] theorem takeTurn_result (s : State) : (takeTurn s).result = s.result := rfl
@[simp] theorem takeTurn_count (s : State) : (takeTurn s).count = s.count := rfl
@[simp] theorem takeTurn_paramK (s : State) : (takeTurn s).paramK = s.paramK := rfl
@[simp] theorem takeTurn_paramN (s : State) : (takeTurn s).paramN = s.paramN := rfl
@[simp] theorem takeTurn_secretLen (s : State) : (takeTurn s).secretLen = s.secretLen := rfl
@[simp] theorem takeTurn_errInfo (s : State) : (takeTurn s).errInfo = s.errInfo := rfl
@[simp] theorem takeTurn_mem (s : State) : (takeTurn s).mem = s.mem := rfl
@[simp] theorem takeTurn_port (s : State) : (takeTurn s).port = s.port := rfl
@[simp] theorem takeTurn_host (s : State) : (takeTurn s).host = s.host := rfl
@[simp] theorem takeTurn_schedule (s : State) : (takeTurn s).schedule = s.schedule.tail := rfl
@[simp] theorem takeTurn_order (s : State) : (takeTurn s).order = s.order := rfl
@[simp] theorem takeTurn_freeMoves (s : State) : (takeTurn s).freeMoves = s.freeMoves + movesDrawn s := rfl
@[simp] theorem takeTurn_freeReads (s : State) : (takeTurn s).freeReads = s.freeReads := rfl

/-! ### After the host going to a line -/

@[simp] theorem atLine_lmax (k : Nat) (s : State) : (atLine k s).lmax = s.lmax := rfl
@[simp] theorem atLine_base (k : Nat) (s : State) : (atLine k s).base = s.base := rfl
@[simp] theorem atLine_irqEn (k : Nat) (s : State) : (atLine k s).irqEn = s.irqEn := rfl
@[simp] theorem atLine_status (k : Nat) (s : State) : (atLine k s).status = s.status := rfl
@[simp] theorem atLine_phase (k : Nat) (s : State) : (atLine k s).phase = s.phase := rfl
@[simp] theorem atLine_cmd (k : Nat) (s : State) : (atLine k s).cmd = s.cmd := rfl
@[simp] theorem atLine_opa (k : Nat) (s : State) : (atLine k s).opa = s.opa := rfl
@[simp] theorem atLine_opb (k : Nat) (s : State) : (atLine k s).opb = s.opb := rfl
@[simp] theorem atLine_result (k : Nat) (s : State) : (atLine k s).result = s.result := rfl
@[simp] theorem atLine_count (k : Nat) (s : State) : (atLine k s).count = s.count := rfl
@[simp] theorem atLine_paramK (k : Nat) (s : State) : (atLine k s).paramK = s.paramK := rfl
@[simp] theorem atLine_paramN (k : Nat) (s : State) : (atLine k s).paramN = s.paramN := rfl
@[simp] theorem atLine_secretLen (k : Nat) (s : State) : (atLine k s).secretLen = s.secretLen := rfl
@[simp] theorem atLine_errInfo (k : Nat) (s : State) : (atLine k s).errInfo = s.errInfo := rfl
@[simp] theorem atLine_mem (k : Nat) (s : State) : (atLine k s).mem = s.mem := rfl
@[simp] theorem atLine_port (k : Nat) (s : State) : (atLine k s).port = s.port := rfl
@[simp] theorem atLine_host (k : Nat) (s : State) : (atLine k s).host = { s.host with line := k } := rfl
@[simp] theorem atLine_schedule (k : Nat) (s : State) : (atLine k s).schedule = s.schedule := rfl
@[simp] theorem atLine_order (k : Nat) (s : State) : (atLine k s).order = s.order := rfl
@[simp] theorem atLine_freeMoves (k : Nat) (s : State) : (atLine k s).freeMoves = s.freeMoves := rfl
@[simp] theorem atLine_freeReads (k : Nat) (s : State) : (atLine k s).freeReads = s.freeReads := rfl

/-! ### After the host noting a transaction -/

@[simp] theorem noteTxn_lmax (t : Txn) (a : BusAnswer) (s : State) : (noteTxn t a s).lmax = s.lmax := rfl
@[simp] theorem noteTxn_base (t : Txn) (a : BusAnswer) (s : State) : (noteTxn t a s).base = s.base := rfl
@[simp] theorem noteTxn_irqEn (t : Txn) (a : BusAnswer) (s : State) : (noteTxn t a s).irqEn = s.irqEn := rfl
@[simp] theorem noteTxn_status (t : Txn) (a : BusAnswer) (s : State) : (noteTxn t a s).status = s.status := rfl
@[simp] theorem noteTxn_phase (t : Txn) (a : BusAnswer) (s : State) : (noteTxn t a s).phase = s.phase := rfl
@[simp] theorem noteTxn_cmd (t : Txn) (a : BusAnswer) (s : State) : (noteTxn t a s).cmd = s.cmd := rfl
@[simp] theorem noteTxn_opa (t : Txn) (a : BusAnswer) (s : State) : (noteTxn t a s).opa = s.opa := rfl
@[simp] theorem noteTxn_opb (t : Txn) (a : BusAnswer) (s : State) : (noteTxn t a s).opb = s.opb := rfl
@[simp] theorem noteTxn_result (t : Txn) (a : BusAnswer) (s : State) : (noteTxn t a s).result = s.result := rfl
@[simp] theorem noteTxn_count (t : Txn) (a : BusAnswer) (s : State) : (noteTxn t a s).count = s.count := rfl
@[simp] theorem noteTxn_paramK (t : Txn) (a : BusAnswer) (s : State) : (noteTxn t a s).paramK = s.paramK := rfl
@[simp] theorem noteTxn_paramN (t : Txn) (a : BusAnswer) (s : State) : (noteTxn t a s).paramN = s.paramN := rfl
@[simp] theorem noteTxn_secretLen (t : Txn) (a : BusAnswer) (s : State) : (noteTxn t a s).secretLen = s.secretLen := rfl
@[simp] theorem noteTxn_errInfo (t : Txn) (a : BusAnswer) (s : State) : (noteTxn t a s).errInfo = s.errInfo := rfl
@[simp] theorem noteTxn_mem (t : Txn) (a : BusAnswer) (s : State) : (noteTxn t a s).mem = s.mem := rfl
@[simp] theorem noteTxn_port (t : Txn) (a : BusAnswer) (s : State) : (noteTxn t a s).port = s.port := rfl
@[simp] theorem noteTxn_host (t : Txn) (a : BusAnswer) (s : State) : (noteTxn t a s).host = { s.host with last := some (t, a) } := rfl
@[simp] theorem noteTxn_schedule (t : Txn) (a : BusAnswer) (s : State) : (noteTxn t a s).schedule = s.schedule := rfl
@[simp] theorem noteTxn_order (t : Txn) (a : BusAnswer) (s : State) : (noteTxn t a s).order = s.order := rfl
@[simp] theorem noteTxn_freeMoves (t : Txn) (a : BusAnswer) (s : State) : (noteTxn t a s).freeMoves = s.freeMoves := rfl
@[simp] theorem noteTxn_freeReads (t : Txn) (a : BusAnswer) (s : State) : (noteTxn t a s).freeReads = s.freeReads := rfl

/-! ### After the host program stopping with BUSERR -/

@[simp] theorem stopBuserr_lmax (s : State) : (stopBuserr s).lmax = s.lmax := rfl
@[simp] theorem stopBuserr_base (s : State) : (stopBuserr s).base = s.base := rfl
@[simp] theorem stopBuserr_irqEn (s : State) : (stopBuserr s).irqEn = s.irqEn := rfl
@[simp] theorem stopBuserr_status (s : State) : (stopBuserr s).status = s.status := rfl
@[simp] theorem stopBuserr_phase (s : State) : (stopBuserr s).phase = s.phase := rfl
@[simp] theorem stopBuserr_cmd (s : State) : (stopBuserr s).cmd = s.cmd := rfl
@[simp] theorem stopBuserr_opa (s : State) : (stopBuserr s).opa = s.opa := rfl
@[simp] theorem stopBuserr_opb (s : State) : (stopBuserr s).opb = s.opb := rfl
@[simp] theorem stopBuserr_result (s : State) : (stopBuserr s).result = s.result := rfl
@[simp] theorem stopBuserr_count (s : State) : (stopBuserr s).count = s.count := rfl
@[simp] theorem stopBuserr_paramK (s : State) : (stopBuserr s).paramK = s.paramK := rfl
@[simp] theorem stopBuserr_paramN (s : State) : (stopBuserr s).paramN = s.paramN := rfl
@[simp] theorem stopBuserr_secretLen (s : State) : (stopBuserr s).secretLen = s.secretLen := rfl
@[simp] theorem stopBuserr_errInfo (s : State) : (stopBuserr s).errInfo = s.errInfo := rfl
@[simp] theorem stopBuserr_mem (s : State) : (stopBuserr s).mem = s.mem := rfl
@[simp] theorem stopBuserr_port (s : State) : (stopBuserr s).port = s.port := rfl
@[simp] theorem stopBuserr_host (s : State) : (stopBuserr s).host = { s.host with outcome := .buserr } := rfl
@[simp] theorem stopBuserr_schedule (s : State) : (stopBuserr s).schedule = s.schedule := rfl
@[simp] theorem stopBuserr_order (s : State) : (stopBuserr s).order = s.order := rfl
@[simp] theorem stopBuserr_freeMoves (s : State) : (stopBuserr s).freeMoves = s.freeMoves := rfl
@[simp] theorem stopBuserr_freeReads (s : State) : (stopBuserr s).freeReads = s.freeReads := rfl

/-! ### After HALT -/

@[simp] theorem hostHalt_lmax (s : State) : (hostHalt s).lmax = s.lmax := rfl
@[simp] theorem hostHalt_base (s : State) : (hostHalt s).base = s.base := rfl
@[simp] theorem hostHalt_irqEn (s : State) : (hostHalt s).irqEn = s.irqEn := rfl
@[simp] theorem hostHalt_status (s : State) : (hostHalt s).status = s.status := rfl
@[simp] theorem hostHalt_phase (s : State) : (hostHalt s).phase = s.phase := rfl
@[simp] theorem hostHalt_cmd (s : State) : (hostHalt s).cmd = s.cmd := rfl
@[simp] theorem hostHalt_opa (s : State) : (hostHalt s).opa = s.opa := rfl
@[simp] theorem hostHalt_opb (s : State) : (hostHalt s).opb = s.opb := rfl
@[simp] theorem hostHalt_result (s : State) : (hostHalt s).result = s.result := rfl
@[simp] theorem hostHalt_count (s : State) : (hostHalt s).count = s.count := rfl
@[simp] theorem hostHalt_paramK (s : State) : (hostHalt s).paramK = s.paramK := rfl
@[simp] theorem hostHalt_paramN (s : State) : (hostHalt s).paramN = s.paramN := rfl
@[simp] theorem hostHalt_secretLen (s : State) : (hostHalt s).secretLen = s.secretLen := rfl
@[simp] theorem hostHalt_errInfo (s : State) : (hostHalt s).errInfo = s.errInfo := rfl
@[simp] theorem hostHalt_mem (s : State) : (hostHalt s).mem = s.mem := rfl
@[simp] theorem hostHalt_port (s : State) : (hostHalt s).port = s.port := rfl
@[simp] theorem hostHalt_host (s : State) : (hostHalt s).host = { s.host with outcome := .halted } := rfl
@[simp] theorem hostHalt_schedule (s : State) : (hostHalt s).schedule = s.schedule := rfl
@[simp] theorem hostHalt_order (s : State) : (hostHalt s).order = s.order := rfl
@[simp] theorem hostHalt_freeMoves (s : State) : (hostHalt s).freeMoves = s.freeMoves := rfl
@[simp] theorem hostHalt_freeReads (s : State) : (hostHalt s).freeReads = s.freeReads := rfl

/-! ### The two exits of a command are completions -/

@[simp] theorem succeed_eq (s : State) : succeed s = finish .ok 0x0000#16 s := rfl

@[simp] theorem raiseError_eq (code : ErrorCode) (info : Half) (s : State) : raiseError code info s = finish code info s := rfl

@[simp] theorem completeIllegal_eq (s : State) : completeIllegal s = finish .illegalCmd 0x0000#16 s := rfl

/-! ### The host's own updates leave the unit's part alone -/

@[simp] theorem unitPart_atLine (k : Nat) (s : State) : unitPart (atLine k s) = unitPart s := rfl

@[simp] theorem unitPart_nextLine (s : State) : unitPart (nextLine s) = unitPart s := rfl

@[simp] theorem unitPart_hostSet (d : HostVar) (x : Word) (s : State) : unitPart (hostSet d x s) = unitPart s := rfl

@[simp] theorem unitPart_noteTxn (t : Txn) (a : BusAnswer) (s : State) : unitPart (noteTxn t a s) = unitPart s := rfl

@[simp] theorem unitPart_stopBuserr (s : State) : unitPart (stopBuserr s) = unitPart s := rfl

@[simp] theorem unitPart_hostHalt (s : State) : unitPart (hostHalt s) = unitPart s := rfl

@[simp] theorem unitPart_supplyByte (b : Byte) (s : State) : unitPart (supplyByte b s) = unitPart s := rfl

@[simp] theorem unitPart_takeTurn (s : State) : unitPart (takeTurn s) = unitPart s := rfl

@[simp] theorem unitPart_freeRead (n : Nat) (s : State) : unitPart (freeRead n s).2 = unitPart s := rfl

end Sys2Proof.Machine
end

