-- ==== Sys2Proof/Laws/Ops.lean ====
section
/-! SUPPORT. One law per shared operation: the map, the bus, the completion and what a command can do. Later proofs cite these
and unfold neither `exec` nor the bus. -/

namespace Sys2Proof.Machine

/-! ### The map (20_memory.md rule R61) -/

theorem regionOf_coef {lmax d : Nat} (h : d < 256) : regionOf lmax (coefAddr d) = .coef := by
  rw [coefAddr, regionOf, if_neg (by omega), if_pos (by omega)]

theorem regionOf_px {lmax j : Nat} (h : j < 256) : regionOf lmax (pxAddr j) = .pointX := by
  rw [pxAddr, regionOf, if_neg (by omega), if_neg (by omega), if_pos (by omega)]

theorem regionOf_py {lmax j : Nat} (h : j < 256) : regionOf lmax (pyAddr j) = .pointY := by
  rw [pyAddr, regionOf, if_neg (by omega), if_neg (by omega), if_neg (by omega), if_pos (by omega)]

theorem regionOf_slen {lmax j k : Nat} (h : j < 256) (hk : k < 4) : regionOf lmax (slenAddr j + k) = .shareLen := by
  rw [slenAddr, regionOf, if_neg (by omega), if_neg (by omega), if_neg (by omega), if_neg (by omega), if_pos (by omega)]

theorem regionOf_secret {lmax i : Nat} (h : i < lmax) : regionOf lmax (secretAddr i) = .secret := by
  rw [secretAddr, regionOf, if_neg (by omega), if_neg (by omega), if_neg (by omega), if_neg (by omega), if_neg (by omega),
    if_pos (by omega)]

theorem regionOf_slot {lmax j b : Nat} (hl : lmax ≤ Config.lmaxGreatest) (hj : j < 255) (hb : b ≤ lmax) :
    regionOf lmax (slotAddr j b) = .slot j := by
  have hl' : lmax ≤ 65534 := hl
  have hd : (slotAddr j b - 0x1000000) / 0x10000 = j := by rw [slotAddr]; omega
  have hm : (slotAddr j b - 0x1000000) % 0x10000 = b := by rw [slotAddr]; omega
  have h1 : 0x1000000 ≤ slotAddr j b := by rw [slotAddr]; omega
  rw [regionOf, hd, hm, if_neg (by omega), if_neg (by omega), if_neg (by omega), if_neg (by omega), if_neg (by omega),
    if_neg (by omega), if_pos ⟨h1, hj, hb⟩]

theorem slenUpper_false_of_lt {off : Nat} (h : off < 0x3000 ∨ 0x3400 ≤ off) : slenUpper off = false := by
  rcases h with h | h
  · have : ¬ 0x3000 ≤ off := by omega
    simp [slenUpper, this]
  · have : ¬ off < 0x3400 := by omega
    simp [slenUpper, this]

theorem isStorage_secret {lmax i : Nat} (h : i < lmax) : isStorage lmax (secretAddr i) = true := by
  have hu : slenUpper (secretAddr i) = false := slenUpper_false_of_lt (by simp only [secretAddr]; omega)
  simp [isStorage, regionOf_secret h, hu]

theorem isStorage_slot {lmax j b : Nat} (hl : lmax ≤ Config.lmaxGreatest) (hj : j < 255) (hb : b ≤ lmax) :
    isStorage lmax (slotAddr j b) = true := by
  have hu : slenUpper (slotAddr j b) = false := slenUpper_false_of_lt (by simp only [slotAddr]; omega)
  simp [isStorage, regionOf_slot hl hj hb, hu]

theorem isStorage_slen {lmax j k : Nat} (hj : j < 256) (hk : k < 2) : isStorage lmax (slenAddr j + k) = true := by
  have hu : slenUpper (slenAddr j + k) = false := by
    have : ¬ 2 ≤ (slenAddr j + k) % 4 := by simp only [slenAddr]; omega
    simp [slenUpper, this]
  simp [isStorage, regionOf_slen hj (show k < 4 by omega), hu]

/-- The bytes of a well-placed access are mapped, in the region of the first. -/
theorem wellPlaced_region {lmax off n k : Nat} (h : wellPlaced lmax off n = true) (hk : k < n) :
    regionOf lmax (off + k) = regionOf lmax off ∧ regionOf lmax off ≠ .unmapped := by
  simp only [wellPlaced, Bool.and_eq_true, List.all_eq_true, List.mem_range, beq_iff_eq, bne_iff_ne] at h
  exact ⟨h.1.2 k hk, h.1.1.2⟩

/-- The widths of a well-placed access. -/
theorem wellPlaced_width {lmax off n : Nat} (h : wellPlaced lmax off n = true) : n = 1 ∨ n = 2 ∨ n = 4 := by
  simp only [wellPlaced, Bool.and_eq_true, Bool.or_eq_true, beq_iff_eq] at h
  have := h.1.1.1.1
  omega

@[simp] theorem length_bytesOf (v : Word) (n : Nat) : (bytesOf v n).length = n := by simp [bytesOf]

/-! ### What a command can do -/

/-- Every completion step ends: a command never faults and is never refused. -/
theorem exec_next (i : Instr) (s : State) : ∃ t, exec i s = .next t := by
  cases i <;> simp only [exec, execAdd, execSub, execMul, execDiv, execInv, execEval, execInterp0, execSplit, execCombine,
    execZeroize]
  all_goals first | exact ⟨_, rfl⟩ | (split <;> first | exact ⟨_, rfl⟩ | (split <;> exact ⟨_, rfl⟩))

/-- What check_indices reports names a position. -/
theorem checkIndices_code {xs : List Byte} {code : ErrorCode} {info : Half} (h : checkIndices xs = some (code, info)) :
    code = .zeroIndex ∨ code = .dupIndex := by
  rw [checkIndices] at h
  split at h
  · simp at h; exact .inl h.1.symm
  · split at h
    · simp at h; exact .inr h.1.symm
    · simp at h

/-- The codes INTERP0 can end with (41_polynomial.md rule R145). -/
theorem interp0Check_code {s : State} {code : ErrorCode} {info : Half} (h : interp0Check s = some (code, info)) :
    (code = .tooFew ∧ info = 0x0000#16) ∨ code = .zeroIndex ∨ code = .dupIndex := by
  rw [interp0Check] at h
  split at h
  · simp at h; exact .inl ⟨h.1.symm, h.2.symm⟩
  · exact .inr (checkIndices_code h)

/-- The codes COMBINE can end with (42_sharing.md rule R166). -/
theorem combineCheck_code {s : State} {code : ErrorCode} {info : Half} (h : combineCheck s = some (code, info)) :
    ((code = .tooFew ∨ code = .shareTooShort ∨ code = .shareTooLong) ∧ info = 0x0000#16) ∨
      code = .lenMismatch ∨ code = .zeroIndex ∨ code = .dupIndex := by
  rw [combineCheck] at h
  split at h
  · simp at h; simp [h.1.symm, h.2.symm]
  · split at h
    · simp at h; simp [h.1.symm]
    · split at h
      · simp at h; simp [h.1.symm, h.2.symm]
      · split at h
        · simp at h; simp [h.1.symm, h.2.symm]
        · exact .inr (.inr (checkIndices_code h))

/-- The codes SPLIT can end with (42_sharing.md rule R161). -/
theorem splitCheck_code {s : State} {code : ErrorCode} (h : splitCheck s = some code) :
    code = .splitEmpty ∨ code = .splitKLt2 ∨ code = .splitNLtK ∨ code = .splitNGt255 ∨ code = .splitTooLong := by
  rw [splitCheck] at h
  repeat' split at h
  all_goals simp at h
  all_goals simp [← h]

/-- The arithmetic of a SPLIT whose checks pass (42_sharing.md rule R160). -/
theorem splitCheck_none {s : State} : splitCheck s = none ↔
    1 ≤ s.secretLen.toNat ∧ 2 ≤ s.paramK.toNat ∧ s.paramK.toNat ≤ s.paramN.toNat ∧ s.paramN.toNat ≤ 255 ∧
      s.secretLen.toNat ≤ s.lmax := by
  rw [splitCheck]
  constructor
  · intro h
    repeat' split at h
    all_goals simp at h
    omega
  · intro h
    rw [if_neg (by omega), if_neg (by omega), if_neg (by omega), if_neg (by omega), if_neg (by omega)]

/-- Everything a command can do. It fails with one code and writes nothing else; it is a SPLIT held for its draws; or it
completes with its own writes. -/
theorem exec_cases {i : Instr} {s t : State} (h : exec i s = .next t) :
    (∃ code info, code ≠ .ok ∧ (info = 0x0000#16 ∨ namesPosition (errorByte code) = true) ∧ t = finish code info s) ∨
    (i = .split ∧ splitCheck s = none ∧ s.port.length < splitDraws s ∧ t = s) ∨
    ((i = .add ∨ i = .sub ∨ i = .mul ∨ i = .div ∨ i = .inv ∨ i = .eval ∨ i = .interp0) ∧
      ∃ v, t = finish .ok 0x0000#16 (setResult v s)) ∨
    (i = .split ∧ splitCheck s = none ∧ splitDraws s ≤ s.port.length ∧ t = finish .ok 0x0000#16 (splitWrites s)) ∨
    (i = .combine ∧ combineCheck s = none ∧ t = finish .ok 0x0000#16 (combineWrites s)) ∨
    (i = .zeroize ∧ t = finish .ok 0x0000#16 (zeroizeWrites s)) := by
  have scalar {v : Byte} (e : Host.Outcome.next (succeed (setResult v s)) = (.next t : Result)) :
      ∃ v, t = finish .ok 0x0000#16 (setResult v s) := ⟨v, (Host.Outcome.next.inj e).symm⟩
  have failed {code : ErrorCode} {info : Half} (e : Host.Outcome.next (raiseError code info s) = (.next t : Result)) :
      t = finish code info s := (Host.Outcome.next.inj e).symm
  cases i with
  | add => exact .inr (.inr (.inl ⟨by simp, scalar h⟩))
  | sub => exact .inr (.inr (.inl ⟨by simp, scalar h⟩))
  | mul => exact .inr (.inr (.inl ⟨by simp, scalar h⟩))
  | div =>
    simp only [exec, execDiv] at h
    split at h
    · exact .inl ⟨.divZero, 0, by simp, .inl rfl, failed h⟩
    · exact .inr (.inr (.inl ⟨by simp, scalar h⟩))
  | inv =>
    simp only [exec, execInv] at h
    split at h
    · exact .inl ⟨.invZero, 0, by simp, .inl rfl, failed h⟩
    · exact .inr (.inr (.inl ⟨by simp, scalar h⟩))
  | eval => exact .inr (.inr (.inl ⟨by simp, scalar h⟩))
  | interp0 =>
    simp only [exec, execInterp0] at h
    split at h
    · rename_i hc
      refine .inl ⟨_, _, ?_, ?_, failed h⟩ <;> rcases interp0Check_code hc with ⟨rfl, rfl⟩ | rfl | rfl <;>
        simp [namesPosition]
    · exact .inr (.inr (.inl ⟨by simp, scalar h⟩))
  | split =>
    simp only [exec, execSplit] at h
    split at h
    · rename_i hc
      refine .inl ⟨_, _, ?_, .inl rfl, failed h⟩
      rcases splitCheck_code hc with rfl | rfl | rfl | rfl | rfl <;> simp
    · rename_i hc
      split at h
      · rename_i hp
        exact .inr (.inl ⟨rfl, hc, hp, (Host.Outcome.next.inj h).symm⟩)
      · exact .inr (.inr (.inr (.inl ⟨rfl, hc, by omega, (Host.Outcome.next.inj h).symm⟩)))
  | combine =>
    simp only [exec, execCombine] at h
    split at h
    · rename_i hc
      refine .inl ⟨_, _, ?_, ?_, failed h⟩ <;>
        rcases combineCheck_code hc with ⟨rfl | rfl | rfl, rfl⟩ | rfl | rfl | rfl <;> simp [namesPosition]
    · rename_i hc
      exact .inr (.inr (.inr (.inr (.inl ⟨rfl, hc, (Host.Outcome.next.inj h).symm⟩))))
  | zeroize => exact .inr (.inr (.inr (.inr (.inr ⟨rfl, (Host.Outcome.next.inj h).symm⟩))))

/-! ### The bus -/

/-- Everything a host read can do: it changes nothing but the free-value counter. -/
theorem memRead_state (off n : Nat) (s : State) :
    (memRead off n s).2 = s ∨ (memRead off n s).2 = { s with freeReads := s.freeReads + 1 } := by
  rw [memRead]
  repeat' split
  all_goals first | exact .inl rfl | exact .inr rfl

@[simp] theorem unitPart_memRead (off n : Nat) (s : State) : unitPart (memRead off n s).2 = unitPart s := by
  rcases memRead_state off n s with h | h <;> rw [h] <;> rfl

/-- Everything a host write can do: a bus error changes nothing; else a register's write rule or a store of the bytes. -/
theorem memWrite_cases (off n : Nat) (v : Word) (s : State) :
    memWrite off n v s = (.busError, s) ∨
    (wellPlaced s.lmax off n = true ∧ writeGated off s = false ∧ regionOf s.lmax off = .regs ∧
      memWrite off n v s = (.ok, writeReg (regAt off) v s)) ∨
    (wellPlaced s.lmax off n = true ∧ s.phase = .idle ∧ regionOf s.lmax off ≠ .regs ∧
      memWrite off n v s = (.ok, { s with mem := storeBytes s.mem off (bytesOf v n) })) := by
  by_cases hw : wellPlaced s.lmax off n = true
  · by_cases hg : writeGated off s = true
    · exact .inl (by simp [memWrite, hw, hg])
    · by_cases hr : regionOf s.lmax off = .regs
      · exact .inr (.inl ⟨hw, by simpa using hg, hr, by simp [memWrite, hw, hg, hr]⟩)
      · refine .inr (.inr ⟨hw, ?_, hr, by simp [memWrite, hw, hg, hr]⟩)
        cases hp : s.phase with
        | idle => rfl
        | busy => simp [writeGated, hp, hr] at hg
  · exact .inl (by simp [memWrite, hw])

/-- While BUSY a host write changes at most IRQ_EN, or resets the unit. -/
theorem memWrite_busy {off n : Nat} {v : Word} {s : State} (hp : s.phase = .busy) :
    (memWrite off n v s).2 = { s with irqEn := (memWrite off n v s).2.irqEn } ∨ (memWrite off n v s).2 = resetUnit s := by
  rcases memWrite_cases off n v s with e | ⟨-, hg, hr, e⟩ | ⟨-, hi, -, -⟩
  · rw [e]; exact .inl rfl
  · have hc : regAt off = .ctrl := by simpa [writeGated, hp, hr] using hg
    rw [e, hc]
    simp only [writeReg, writeCtrl]
    split
    · exact .inr rfl
    · exact .inl rfl
  · simp [hp] at hi

/-- A host write that starts a command is the 4-byte write to CMD (30_encoding.md rule R96). -/
theorem memWrite_starts {off n : Nat} {v : Word} {s : State} (hp : s.phase = .idle)
    (hb : (memWrite off n v s).2.phase = .busy) : off = 0x0C ∧ n = 4 ∧ memWrite off n v s = (.ok, accept v s) := by
  rcases memWrite_cases off n v s with e | ⟨hw, -, hr, e⟩ | ⟨-, -, -, e⟩ <;> rw [e] at hb ⊢
  · simp [hp] at hb
  · have hn : n = 4 := by
      simp only [wellPlaced, hr, Bool.and_eq_true] at hw
      simpa using hw.2
    cases hc : regAt off <;> rw [hc] at hb <;> simp only [writeReg, writeCtrl] at hb
    case cmd =>
      refine ⟨?_, hn, rfl⟩
      unfold regAt at hc
      split at hc <;> simp at hc ⊢
    all_goals first | (simp [hp] at hb; done) | (split at hb <;> simp [hp] at hb)
  · simp [hp] at hb

end Sys2Proof.Machine
end

