-- ==== Sys2Proof/Laws/Sharing.lean ====
section
/-! SUPPORT. Laws of SPLIT's and COMBINE's writes: what each share byte, each length and every other byte reads as after them. -/

namespace Sys2Proof.Machine

/-! ### The polynomials (42_sharing.md rule R162) -/

@[simp] theorem length_splitPolys (secret : List Byte) (k1 : Nat) (draws : List Byte) :
    (splitPolys secret k1 draws).length = secret.length := by
  induction secret generalizing draws with
  | nil => rfl
  | cons b bs ih => simp [splitPolys, ih]

/-- Position i takes the draws i*(K-1) to i*(K-1) + K-2. -/
theorem splitPolys_getD (secret : List Byte) (k1 : Nat) (draws : List Byte) {i : Nat} (h : i < secret.length) :
    (splitPolys secret k1 draws).getD i [] = secret.getD i 0x00#8 :: (draws.drop (i * k1)).take k1 := by
  induction secret generalizing draws i with
  | nil => simp at h
  | cons b bs ih =>
    cases i with
    | zero => simp [splitPolys]
    | succ i =>
      rw [splitPolys, List.getD_cons_succ, ih _ (by simpa using h), List.getD_cons_succ, List.drop_drop]
      congr 3
      rw [Nat.succ_mul]; omega

@[simp] theorem length_secretBytes (s : State) : (secretBytes s).length = s.secretLen.toNat := by simp [secretBytes]

theorem secretBytes_getD {s : State} {i : Nat} (h : i < s.secretLen.toNat) :
    (secretBytes s).getD i 0x00#8 = readByte s.mem (secretAddr i) := by
  rw [List.getD_eq_getElem _ _ (by simpa using h)]
  simp [secretBytes]

/-- SPLIT's polynomial at position i: the secret byte, then its own K-1 draws. -/
theorem splitPolysOf_getD {s : State} {i : Nat} (h : i < s.secretLen.toNat) :
    (splitPolysOf s).getD i [] =
      readByte s.mem (secretAddr i) :: (s.port.drop (i * (s.paramK.toNat - 1))).take (s.paramK.toNat - 1) := by
  rw [splitPolysOf, splitPolys_getD _ _ _ (by simpa using h), secretBytes_getD h]

@[simp] theorem length_splitPolysOf (s : State) : (splitPolysOf s).length = s.secretLen.toNat := by simp [splitPolysOf]

/-! ### The shares (42_sharing.md rule R163) -/

@[simp] theorem length_shareBytes (polys : List (List Byte)) (x : Byte) :
    (shareBytes polys x).length = polys.length + 1 := by simp [shareBytes]

@[simp] theorem shareBytes_index (polys : List (List Byte)) (x d : Byte) : (shareBytes polys x).getD 0 d = x := rfl

theorem shareBytes_payload {polys : List (List Byte)} {x : Byte} {i : Nat} (h : i < polys.length) (d : Byte) :
    (shareBytes polys x).getD (1 + i) d = horner (polys.getD i []) x := by
  rw [shareBytes, Nat.add_comm, List.getD_cons_succ, List.getD_eq_getElem _ _ (by simpa using h),
    List.getD_eq_getElem _ _ h]
  simp

theorem writeShares_zero (polys : List (List Byte)) (len : Half) (m : Memory) : writeShares polys len 0 m = m := rfl

theorem writeShares_succ (polys : List (List Byte)) (len : Half) (n : Nat) (m : Memory) :
    writeShares polys len (n + 1) m = writeShare polys len (writeShares polys len n m) n := by
  rw [writeShares, writeShares, List.range_succ, List.foldl_append]; rfl

/-- A byte that is neither of slot j's share nor of SLEN[j]. -/
def OutsideShare (polys : List (List Byte)) (j a : Nat) : Prop :=
  (a < slotAddr j 0 ∨ slotAddr j 0 + (polys.length + 1) ≤ a) ∧ a ≠ slenAddr j ∧ a ≠ slenAddr j + 1

theorem readByte_writeShare_outside {polys : List (List Byte)} {len : Half} {m : Memory} {j a : Nat}
    (h : OutsideShare polys j a) : readByte (writeShare polys len m j) a = readByte m a := by
  obtain ⟨h1, h2, h3⟩ := h
  rw [writeShare, setSlen, readByte_writeBlock_outside, readByte_writeBlock_outside]
  · simpa using h1
  · simp; omega

theorem readByte_writeShare_slot {polys : List (List Byte)} {len : Half} {m : Memory} {j b : Nat} (hj : j < 255)
    (hb : b ≤ polys.length) :
    readByte (writeShare polys len m j) (slotAddr j b) =
      (shareBytes polys (BitVec.ofNat 8 (j + 1))).getD b 0x00#8 := by
  have e : slotAddr j b = slotAddr j 0 + b := by simp [slotAddr]
  rw [writeShare, setSlen, readByte_writeBlock_outside, e, readByte_writeBlock_inside _ _ _ (by simpa using by omega)]
  · rfl
  · right; simp only [slotAddr, slenAddr, List.length_cons, List.length_nil]; omega

theorem slen_writeShare_same (polys : List (List Byte)) (len : Half) (m : Memory) (j : Nat) :
    slen (writeShare polys len m j) j = len := slen_setSlen_same _ _ _

/-- Every share byte after SPLIT's writes: the slots do not overlap. -/
theorem readByte_writeShares_slot {polys : List (List Byte)} {len : Half} {m : Memory} {n j b : Nat} (hn : n ≤ 255)
    (hp : polys.length < 0x10000) (hj : j < n) (hb : b ≤ polys.length) :
    readByte (writeShares polys len n m) (slotAddr j b) =
      (shareBytes polys (BitVec.ofNat 8 (j + 1))).getD b 0x00#8 := by
  induction n with
  | zero => omega
  | succ n ih =>
    rw [writeShares_succ]
    by_cases h : j = n
    · subst h; exact readByte_writeShare_slot (by omega) hb
    · rw [readByte_writeShare_outside, ih (by omega) (by omega)]
      refine ⟨?_, ?_, ?_⟩ <;> simp only [slotAddr, slenAddr] <;> omega

/-- Every length after SPLIT's writes. -/
theorem slen_writeShares {polys : List (List Byte)} {len : Half} {m : Memory} {n j : Nat} (hn : n ≤ 255) (hj : j < n) :
    slen (writeShares polys len n m) j = len := by
  induction n with
  | zero => omega
  | succ n ih =>
    rw [writeShares_succ]
    by_cases h : j = n
    · subst h; exact slen_writeShare_same _ _ _ _
    · rw [slen_congr (m := writeShares polys len n m), ih (by omega) (by omega)]
      all_goals
        apply readByte_writeShare_outside
        refine ⟨?_, ?_, ?_⟩ <;> simp only [slotAddr, slenAddr] <;> omega

/-- SPLIT's writes leave every other byte alone. -/
theorem readByte_writeShares_outside {polys : List (List Byte)} {len : Half} {m : Memory} {n a : Nat}
    (h : ∀ j < n, OutsideShare polys j a) : readByte (writeShares polys len n m) a = readByte m a := by
  induction n with
  | zero => rfl
  | succ n ih =>
    rw [writeShares_succ, readByte_writeShare_outside (h n (by omega)), ih fun j hj => h j (by omega)]

theorem memoryWf_writeShares {m : Memory} (h : memoryWf m) (polys : List (List Byte)) (len : Half) (n : Nat) :
    memoryWf (writeShares polys len n m) := by
  induction n with
  | zero => exact h
  | succ n ih =>
    rw [writeShares_succ]
    exact memoryWf_writeBlock (memoryWf_writeBlock ih _ _) _ _

/-- SPLIT's writes list only old cells, share bytes and lengths. -/
theorem mem_writeShares {polys : List (List Byte)} {len : Half} {m : Memory} {n : Nat} {c : Host.Cell}
    (h : c ∈ writeShares polys len n m) :
    c ∈ m ∨ ∃ j < n, (∃ b ≤ polys.length, c.1 = slotAddr j b) ∨ ∃ k < 2, c.1 = slenAddr j + k := by
  induction n with
  | zero => exact .inl h
  | succ n ih =>
    rw [writeShares_succ, writeShare, setSlen] at h
    rcases mem_writeBlock h with h | h
    · rcases mem_writeBlock h with h | h
      · rcases ih h with h | ⟨j, hj, h⟩
        · exact .inl h
        · exact .inr ⟨j, by omega, h⟩
      · simp only [length_shareBytes] at h
        refine .inr ⟨n, by omega, .inl ⟨c.1 - slotAddr n 0, by omega, ?_⟩⟩
        have := h.1
        simp only [slotAddr] at *
        omega
    · simp only [List.length_cons, List.length_nil] at h
      exact .inr ⟨n, by omega, .inr ⟨c.1 - slenAddr n, by omega, by omega⟩⟩

/-! ### COMBINE (42_sharing.md rule R166) -/

@[simp] theorem length_combinedSecret (s : State) : (combinedSecret s).length = (slen s.mem 0).toNat - 1 := by
  simp [combinedSecret]

theorem combinedSecret_getD {s : State} {i : Nat} (h : i < (slen s.mem 0).toNat - 1) :
    (combinedSecret s).getD i 0x00#8 = lagrange0 (shareIndices s) (sharePayloads s i) := by
  rw [List.getD_eq_getElem _ _ (by simpa using h)]
  simp [combinedSecret]

/-- The length checks of a COMBINE whose checks pass. -/
theorem combineCheck_none_lengths {s : State} (h : combineCheck s = none) :
    2 ≤ s.count.toNat ∧ 2 ≤ (slen s.mem 0).toNat ∧ (slen s.mem 0).toNat ≤ s.lmax + 1 := by
  rw [combineCheck] at h
  split at h
  · simp at h
  · split at h
    · simp at h
    · split at h
      · simp at h
      · split at h
        · simp at h
        · omega

end Sys2Proof.Machine
end

