-- ==== Sys2Proof/Laws/Invariant.lean ====
section
/-! SUPPORT. The invariant under every named update, under every command and under every host write. -/

namespace Sys2Proof.Machine

/-- The invariant is about the unit's part only. -/
theorem Inv.congr {s t : State} (hs : Inv s) (h : unitPart t = unitPart s) : Inv t := by
  have e {α : Type} (f : State → α) (hf : ∀ u, f (unitPart u) = f u) : f t = f s := by rw [← hf t, h, hf s]
  have el := e State.lmax fun _ => rfl
  have em := e State.mem fun _ => rfl
  have ep := e State.phase fun _ => rfl
  have est := e State.status fun _ => rfl
  have ei := e State.errInfo fun _ => rfl
  constructor
  · rw [el]; exact hs.lmaxLegal
  · rw [em]; exact hs.memCanonical
  · rw [em, el]; exact hs.memMapped
  · rw [ep, est]; exact hs.phaseIsBusy
  · rw [est]; exact hs.busyNotDone
  · rw [est]; exact hs.errfIsErr
  · rw [est]; exact hs.errInTable
  · rw [ei, est]; exact hs.infoNamed

/-- A completion keeps the invariant, whatever it wrote that keeps memory legal. -/
theorem Inv.finish {s : State} (hl : Config.lmaxLeast ≤ s.lmax ∧ s.lmax ≤ Config.lmaxGreatest) (hm : memoryWf s.mem)
    (hc : ∀ c ∈ s.mem, isStorage s.lmax c.1 = true) {code : ErrorCode} {info : Half}
    (hi : info = 0x0000#16 ∨ namesPosition (errorByte code) = true) : Inv (finish code info s) where
  lmaxLegal := hl
  memCanonical := hm
  memMapped := hc
  phaseIsBusy := by simp [completedStatus]
  busyNotDone := by simp [completedStatus]
  errfIsErr := by simp [completedStatus, errfOf]
  errInTable := ⟨code, rfl⟩
  infoNamed := hi

theorem Inv.accept {s : State} (h : Inv s) (w : Word) : Inv (accept w s) where
  lmaxLegal := h.lmaxLegal
  memCanonical := h.memCanonical
  memMapped := h.memMapped
  phaseIsBusy := by simp [acceptedStatus]
  busyNotDone := by simp [acceptedStatus]
  errfIsErr := h.errfIsErr
  errInTable := h.errInTable
  infoNamed := h.infoNamed

theorem Inv.ackDone {s : State} (h : Inv s) : Inv (ackDone s) where
  lmaxLegal := h.lmaxLegal
  memCanonical := h.memCanonical
  memMapped := h.memMapped
  phaseIsBusy := h.phaseIsBusy
  busyNotDone := fun _ => rfl
  errfIsErr := h.errfIsErr
  errInTable := h.errInTable
  infoNamed := h.infoNamed

theorem Inv.resetUnit {s : State} (h : Inv s) : Inv (resetUnit s) where
  lmaxLegal := h.lmaxLegal
  memCanonical := memoryWf_nil
  memMapped := by simp
  phaseIsBusy := by simp [Status.zero]
  busyNotDone := by simp [Status.zero]
  errfIsErr := by simp [Status.zero]
  errInTable := ⟨.ok, rfl⟩
  infoNamed := .inl rfl

/-- Every command keeps the invariant. -/
theorem Inv.exec {i : Instr} {s t : State} (h : Inv s) (e : exec i s = .next t) : Inv t := by
  rcases exec_cases e with ⟨code, info, -, hi, rfl⟩ | ⟨-, -, -, rfl⟩ | ⟨-, v, rfl⟩ | ⟨-, hc, -, rfl⟩ | ⟨-, hc, rfl⟩ | ⟨-, rfl⟩
  · exact Inv.finish h.lmaxLegal h.memCanonical h.memMapped hi
  · exact h
  · exact Inv.finish (s := setResult v s) h.lmaxLegal h.memCanonical h.memMapped (.inl rfl)
  · refine Inv.finish (s := splitWrites s) h.lmaxLegal (memoryWf_writeShares h.memCanonical _ _ _) ?_ (.inl rfl)
    intro c hm
    have hb := splitCheck_none.1 hc
    rcases mem_writeShares hm with hm | ⟨j, hj, ⟨b, hbl, e⟩ | ⟨k, hk, e⟩⟩
    · exact h.memMapped c hm
    · rw [length_splitPolysOf] at hbl
      rw [e]; exact isStorage_slot h.lmaxLegal.2 (by omega) (show b ≤ s.lmax by omega)
    · rw [e]; exact isStorage_slen (by omega) hk
  · refine Inv.finish (s := combineWrites s) h.lmaxLegal (memoryWf_writeBlock h.memCanonical _ _) ?_ (.inl rfl)
    intro c hm
    have hb := combineCheck_none_lengths hc
    rcases mem_writeBlock hm with hm | hm
    · exact h.memMapped c hm
    · rw [length_combinedSecret] at hm
      have e : c.1 = secretAddr (c.1 - secretAddr 0) := by simp only [secretAddr] at *; omega
      rw [e]; exact isStorage_secret (show _ < s.lmax by omega)
  · exact Inv.finish (s := zeroizeWrites s) h.lmaxLegal memoryWf_nil (by simp) (.inl rfl)

/-- Every register write keeps the invariant. -/
theorem Inv.writeReg {s : State} (h : Inv s) (r : Reg) (v : Word) : Inv (writeReg r v s) := by
  have same {t : State} (hl : t.lmax = s.lmax) (hm : t.mem = s.mem) (hp : t.phase = s.phase) (hs : t.status = s.status)
      (hi : t.errInfo = s.errInfo) : Inv t := by
    constructor
    · rw [hl]; exact h.lmaxLegal
    · rw [hm]; exact h.memCanonical
    · rw [hm, hl]; exact h.memMapped
    · rw [hp, hs]; exact h.phaseIsBusy
    · rw [hs]; exact h.busyNotDone
    · rw [hs]; exact h.errfIsErr
    · rw [hs]; exact h.errInTable
    · rw [hi, hs]; exact h.infoNamed
  cases r with
  | ctrl =>
    simp only [Machine.writeReg, writeCtrl]
    split
    · exact h.resetUnit
    · exact same rfl rfl rfl rfl rfl
  | status =>
    simp only [Machine.writeReg]
    split
    · exact h.ackDone
    · exact h
  | cmd => exact h.accept v
  | id | result | errInfo | caps | reserved => exact h
  | opa | opb | count | param | secretLen => exact same rfl rfl rfl rfl rfl

/-- Every host write keeps the invariant. -/
theorem Inv.memWrite {s : State} (h : Inv s) (off n : Nat) (v : Word) : Inv (memWrite off n v s).2 := by
  rcases memWrite_cases off n v s with e | ⟨-, -, -, e⟩ | ⟨hw, -, hr, e⟩ <;> rw [e]
  · exact h
  · exact h.writeReg _ _
  · refine ⟨h.lmaxLegal, memoryWf_storeBytes h.memCanonical _ _, ?_, h.phaseIsBusy, h.busyNotDone, h.errfIsErr, h.errInTable,
      h.infoNamed⟩
    intro c hm
    rcases mem_storeBytes hm with hm | ⟨h1, h2, h3⟩
    · exact h.memMapped c hm
    · rw [length_bytesOf] at h2
      obtain ⟨e1, e2⟩ := wellPlaced_region hw (k := c.1 - off) (by omega)
      rw [show off + (c.1 - off) = c.1 by omega] at e1
      show isStorage s.lmax c.1 = true
      rw [isStorage, e1, h3]
      cases hreg : regionOf s.lmax off with
      | regs => exact absurd hreg hr
      | unmapped => exact absurd hreg e2
      | coef | pointX | pointY | shareLen | secret | slot j => rfl

theorem Inv.memRead {s : State} (h : Inv s) (off n : Nat) : Inv (memRead off n s).2 :=
  h.congr (unitPart_memRead off n s)

end Sys2Proof.Machine
end

