-- ==== Sys2Proof/Laws/PerInstr.lean ====
section
/-! SUPPORT. Statements for all instructions, one lemma per constructor of Instr. -/

namespace Sys2Proof.Laws.CommandWord

/-- The command's word is a command word of 30_encoding.md rule R92, and the decoder gives the command back. -/
def Statement (i : Instr) : Prop := WellFormed.commandWord (encode i) = true ∧ decode (encode i) = .command i

theorem add : Statement .add := ⟨by decide, by decide⟩
theorem sub : Statement .sub := ⟨by decide, by decide⟩
theorem mul : Statement .mul := ⟨by decide, by decide⟩
theorem div : Statement .div := ⟨by decide, by decide⟩
theorem inv : Statement .inv := ⟨by decide, by decide⟩
theorem eval : Statement .eval := ⟨by decide, by decide⟩
theorem interp0 : Statement .interp0 := ⟨by decide, by decide⟩
theorem split : Statement .split := ⟨by decide, by decide⟩
theorem combine : Statement .combine := ⟨by decide, by decide⟩
theorem zeroize : Statement .zeroize := ⟨by decide, by decide⟩

end Sys2Proof.Laws.CommandWord
end

