-- ==== Sys2Proof/Laws/Step.lean ====
section
/-! SUPPORT. What the agents' steps can do, said once: the frame of a command, of a host line and of a whole step. -/

namespace Sys2Proof.Machine

/-! ### Commands -/

/-- What no command writes. -/
theorem exec_frame {i : Instr} {s t : State} (h : exec i s = .next t) :
    t.lmax = s.lmax ∧ t.base = s.base ∧ t.irqEn = s.irqEn ∧ t.cmd = s.cmd ∧ t.host = s.host ∧ t.schedule = s.schedule ∧
      t.freeReads = s.freeReads ∧ t.order = s.order ∧ t.freeMoves = s.freeMoves := by
  rcases exec_cases h with ⟨_, _, -, -, rfl⟩ | ⟨-, -, -, rfl⟩ | ⟨-, _, rfl⟩ | ⟨-, -, -, rfl⟩ | ⟨-, -, rfl⟩ | ⟨-, rfl⟩ <;>
    exact ⟨rfl, rfl, rfl, rfl, rfl, rfl, rfl, rfl, rfl⟩

/-- A command that is not a held SPLIT ends with Finish. -/
theorem exec_finish {i : Instr} {s t : State} (h : exec i s = .next t)
    (hh : ¬(i = .split ∧ splitCheck s = none ∧ s.port.length < splitDraws s)) :
    ∃ code info u, t = finish code info u ∧ u.cmd = s.cmd := by
  rcases exec_cases h with ⟨c, n, -, -, rfl⟩ | ⟨a, b, c, -⟩ | ⟨-, v, rfl⟩ | ⟨-, -, -, rfl⟩ | ⟨-, -, rfl⟩ | ⟨-, rfl⟩
  · exact ⟨c, n, s, rfl, rfl⟩
  · exact absurd ⟨a, b, c⟩ hh
  · exact ⟨.ok, 0, setResult v s, rfl, rfl⟩
  · exact ⟨.ok, 0, splitWrites s, rfl, rfl⟩
  · exact ⟨.ok, 0, combineWrites s, rfl, rfl⟩
  · exact ⟨.ok, 0, zeroizeWrites s, rfl, rfl⟩

theorem engineHeld_iff {s : State} : engineHeld s = true ↔
    decode s.cmd = .command .split ∧ splitCheck s = none ∧ s.port.length < splitDraws s := by
  simp [engineHeld, and_assoc]

/-! ### Host lines -/

/-- No host write reaches the host's own state, the port or the schedule. -/
theorem memWrite_frame (off n : Nat) (v : Word) (s : State) :
    (memWrite off n v s).2.host = s.host ∧ (memWrite off n v s).2.port = s.port ∧
      (memWrite off n v s).2.schedule = s.schedule ∧ (memWrite off n v s).2.lmax = s.lmax ∧
      (memWrite off n v s).2.base = s.base ∧ (memWrite off n v s).2.freeReads = s.freeReads ∧
      (memWrite off n v s).2.order = s.order ∧ (memWrite off n v s).2.freeMoves = s.freeMoves := by
  rcases memWrite_cases off n v s with e | ⟨-, -, -, e⟩ | ⟨-, -, -, e⟩ <;> rw [e]
  · exact ⟨rfl, rfl, rfl, rfl, rfl, rfl, rfl, rfl⟩
  · cases regAt off <;> simp only [writeReg, writeCtrl]
    all_goals first | exact ⟨rfl, rfl, rfl, rfl, rfl, rfl, rfl, rfl⟩ | (split <;> exact ⟨rfl, rfl, rfl, rfl, rfl, rfl, rfl, rfl⟩) | simp
  · exact ⟨rfl, rfl, rfl, rfl, rfl, rfl, rfl, rfl⟩

/-- The unit sees a host access at its window offset, wherever the window stands (20_memory.md rule R61). -/
@[simp] theorem windowOffset_busAddress (s : State) (off : Word) : windowOffset s (busAddress s off) = off.toNat := by
  rw [windowOffset, busAddress]
  congr 1
  rw [BitVec.add_comm, BitVec.add_sub_cancel]

/-- What a host write line does to the unit is the bus write. -/
theorem unitPart_hostWrite (n : Nat) (off v : Word) (s : State) :
    unitPart (hostWrite n off v s) = unitPart (memWrite off.toNat n v s).2 := by
  rw [hostWrite]
  simp only [windowOffset_busAddress]
  split <;> simp

/-- A host read line does nothing to the unit. -/
theorem unitPart_hostRead (n : Nat) (h : HostVar) (off : Word) (s : State) :
    unitPart (hostRead n h off s) = unitPart s := by
  rw [hostRead]
  simp only [windowOffset_busAddress]
  split <;> simp

/-- A host line keeps the program, the port, the schedule and the order after it. -/
def HostKeeps (s t : State) : Prop :=
  t.host.program = s.host.program ∧ t.port = s.port ∧ t.schedule = s.schedule ∧ t.order = s.order

theorem hostKeeps_hostWrite (n : Nat) (off v : Word) (s : State) : HostKeeps s (hostWrite n off v s) := by
  have f : HostKeeps s (memWrite off.toNat n v s).2 := by
    have f := memWrite_frame off.toNat n v s
    exact ⟨congrArg HostAgent.program f.1, f.2.1, f.2.2.1, f.2.2.2.2.2.2.1⟩
  rw [hostWrite]
  simp only [windowOffset_busAddress]
  split <;> exact f

theorem hostKeeps_hostRead (n : Nat) (h : HostVar) (off : Word) (s : State) : HostKeeps s (hostRead n h off s) := by
  have f : HostKeeps s (memRead off.toNat n s).2 := by
    rcases memRead_state off.toNat n s with e | e <;> rw [e] <;> exact ⟨rfl, rfl, rfl, rfl⟩
  rw [hostRead]
  simp only [windowOffset_busAddress]
  split <;> exact f

theorem hostJump_next {l : Nat} {s t : State} (h : hostJump l s = .next t) : ∃ k, t = atLine k s := by
  rw [hostJump] at h
  split at h
  · exact ⟨_, (Host.Outcome.next.inj h).symm⟩
  · simp at h

/-- Everything a host line can do: the unit is as before, or as one bus write leaves it. -/
theorem hostLine_cases {op : HostOp} {s t : State} (h : hostLine op s = .next t) :
    HostKeeps s t ∧ (unitPart t = unitPart s ∨
      ∃ off n v, op = .write n off v ∧
        unitPart t = unitPart (memWrite off.toNat n (hostVal s.host.vars v) s).2) := by
  have quiet {u : State} (e : Host.Outcome.next u = (.next t : Result)) (hk : HostKeeps s u)
      (hu : unitPart u = unitPart s) : HostKeeps s t ∧ (unitPart t = unitPart s ∨ ∃ off n v, op = .write n off v ∧
        unitPart t = unitPart (memWrite off.toNat n (hostVal s.host.vars v) s).2) := by
    cases Host.Outcome.next.inj e; exact ⟨hk, .inl hu⟩
  have kept (k : Nat) : HostKeeps s (atLine k s) := ⟨rfl, rfl, rfl, rfl⟩
  have jump {l : Nat} (e : hostJump l s = .next t) : HostKeeps s t ∧ (unitPart t = unitPart s ∨ ∃ off n v,
      op = .write n off v ∧ unitPart t = unitPart (memWrite off.toNat n (hostVal s.host.vars v) s).2) := by
    obtain ⟨k, rfl⟩ := hostJump_next e
    exact ⟨kept k, .inl (by simp)⟩
  cases op with
  | write n off v =>
    cases Host.Outcome.next.inj h
    exact ⟨hostKeeps_hostWrite _ _ _ _, .inr ⟨off, n, v, rfl, unitPart_hostWrite _ _ _ _⟩⟩
  | read n d off => exact quiet h (hostKeeps_hostRead _ _ _ _) (unitPart_hostRead _ _ _ _)
  | andi d m imm => exact quiet h ⟨rfl, rfl, rfl, rfl⟩ rfl
  | addi d m imm => exact quiet h ⟨rfl, rfl, rfl, rfl⟩ rfl
  | shri d m k => exact quiet h ⟨rfl, rfl, rfl, rfl⟩ rfl
  | beqi d imm l =>
    simp only [hostLine] at h
    split at h
    · exact jump h
    · exact quiet h (kept _) rfl
  | bnei d imm l =>
    simp only [hostLine] at h
    split at h
    · exact quiet h (kept _) rfl
    · exact jump h
  | jump l => exact jump h
  | halt => exact quiet h ⟨rfl, rfl, rfl, rfl⟩ rfl
  | label l => exact quiet h (kept _) rfl

/-- Everything the host's step can do. -/
theorem hostStep_cases {s t : State} (h : hostStep s = .next t) :
    HostKeeps s t ∧ (unitPart t = unitPart s ∨
      ∃ off n v, unitPart t = unitPart (memWrite off n v s).2) := by
  have idle (e : Host.Outcome.next s = (.next t : Result)) : HostKeeps s t ∧ (unitPart t = unitPart s ∨
      ∃ off n v, unitPart t = unitPart (memWrite off n v s).2) := by
    cases Host.Outcome.next.inj e; exact ⟨⟨rfl, rfl, rfl, rfl⟩, .inl rfl⟩
  rw [hostStep] at h
  split at h
  · split at h
    · obtain ⟨hk, hu | ⟨off, n, v, -, hu⟩⟩ := hostLine_cases h
      · exact ⟨hk, .inl hu⟩
      · exact ⟨hk, .inr ⟨_, _, _, hu⟩⟩
    · exact idle h
  · exact idle h
  · exact idle h

/-! ### The whole step -/

theorem mover_scheduled {s : State} {mv : Move} {rest : List Move} (h : s.schedule = mv :: rest) : mover s = mv := by
  simp [mover, h]

theorem takeTurn_scheduled {s : State} {mv : Move} {rest : List Move} (h : s.schedule = mv :: rest) :
    takeTurn s = { s with schedule := rest } := by
  simp [takeTurn, movesDrawn, h]

theorem mover_unscheduled {s : State} (h : s.schedule = []) : mover s = defaultMove s := by simp [mover, h]

/-- Where nothing is scheduled and the order is not free, the mover acts on the state itself. -/
theorem takeTurn_unscheduled {s : State} (h : s.schedule = []) (ho : s.order ≠ .free) : takeTurn s = s := by
  have hd : movesDrawn s = 0 := by
    rw [movesDrawn, h]
    cases e : s.order <;> simp_all
  rw [takeTurn, hd, h]
  cases s
  simp_all

/-- Where nothing is scheduled and the order is free, one free move is taken. -/
theorem takeTurn_free {s : State} (h : s.schedule = []) (ho : s.order = .free) :
    takeTurn s = { s with freeMoves := s.freeMoves + 1 } := by
  have hd : movesDrawn s = 1 := by simp [movesDrawn, h, ho]
  rw [takeTurn, hd, h]
  cases s
  simp_all

theorem step_scheduled {s : State} {mv : Move} {rest : List Move} (h : s.schedule = mv :: rest) :
    step s = moveStep mv { s with schedule := rest } := by
  rw [step, mover_scheduled h, takeTurn_scheduled h]

theorem completionStep_cases {s t : State} (h : completionStep s = .next t) :
    (∃ i, decode s.cmd = .command i ∧ exec i s = .next t) ∨
      ((∃ why, decode s.cmd = .illegal why) ∧ t = finish .illegalCmd 0x0000#16 s) := by
  rw [completionStep] at h
  split at h
  · rename_i i hd
    exact .inl ⟨i, hd, h⟩
  · rename_i why hd
    exact .inr ⟨⟨why, hd⟩, (Host.Outcome.next.inj h).symm⟩

/-- Everything one step can do. -/
theorem step_cases {s t : State} (h : step s = .next t) :
    (unitPart t = unitPart s) ∨
    (s.phase = .busy ∧ ∃ i, decode s.cmd = .command i ∧ exec i (takeTurn s) = .next t) ∨
    (s.phase = .busy ∧ (∃ why, decode s.cmd = .illegal why) ∧ t = finish .illegalCmd 0x0000#16 (takeTurn s)) ∨
    t = resetUnit (takeTurn s) ∨
    ∃ off n v, unitPart t = unitPart (memWrite off n v (takeTurn s)).2 := by
  rw [step] at h
  cases hp : mover s with
  | host =>
    rw [hp] at h
    obtain ⟨-, hu | ⟨off, n, v, hu⟩⟩ := hostStep_cases (s := takeTurn s) h
    · exact .inl hu
    · exact .inr (.inr (.inr (.inr ⟨off, n, v, hu⟩)))
  | engine =>
    rw [hp] at h
    simp only [moveStep, engineStep] at h
    split at h
    · rename_i hb
      rcases completionStep_cases h with h | ⟨hd, ht⟩
      · exact .inr (.inl ⟨hb, h⟩)
      · exact .inr (.inr (.inl ⟨hb, hd, ht⟩))
    · cases Host.Outcome.next.inj h; exact .inl rfl
  | rst =>
    rw [hp] at h
    exact .inr (.inr (.inr (.inl (Host.Outcome.next.inj h).symm)))
  | rng b =>
    rw [hp] at h
    cases Host.Outcome.next.inj h; exact .inl rfl

/-- No step changes the host's program. -/
theorem step_program {s t : State} (h : step s = .next t) : t.host.program = s.host.program := by
  rw [step] at h
  cases hp : mover s with
  | host => rw [hp] at h; exact (hostStep_cases (s := takeTurn s) h).1.1
  | engine =>
    rw [hp] at h
    simp only [moveStep, engineStep] at h
    split at h
    · rcases completionStep_cases h with ⟨i, -, h⟩ | ⟨-, rfl⟩
      · exact congrArg HostAgent.program (exec_frame h).2.2.2.2.1
      · rfl
    · cases Host.Outcome.next.inj h; rfl
  | rst => rw [hp] at h; cases Host.Outcome.next.inj h; rfl
  | rng b => rw [hp] at h; cases Host.Outcome.next.inj h; rfl

/-- No step changes the order of the moves that are not scheduled. -/
theorem step_order {s t : State} (h : step s = .next t) : t.order = s.order := by
  rw [step] at h
  cases hp : mover s with
  | host => rw [hp] at h; exact (hostStep_cases (s := takeTurn s) h).1.2.2.2
  | engine =>
    rw [hp] at h
    simp only [moveStep, engineStep] at h
    split at h
    · rcases completionStep_cases h with ⟨i, -, h⟩ | ⟨-, rfl⟩
      · exact (exec_frame h).2.2.2.2.2.2.2.1
      · rfl
    · cases Host.Outcome.next.inj h; rfl
  | rst => rw [hp] at h; cases Host.Outcome.next.inj h; rfl
  | rng b => rw [hp] at h; cases Host.Outcome.next.inj h; rfl

end Sys2Proof.Machine
end

