-- ==== Sys2Proof/Tests/Slice0.lean ====
section
/-! SUPPORT. Tests: ill-formed terms, command words written out from the encoding (30_encoding.md rules R90 and R92), vectors of
95_test_vectors.md, and, for each obligation with hypotheses, states that meet them. Expected values are the spec's. -/

namespace Sys2Proof.Tests

open Sys2Proof Sys2Proof.Machine

/-! ### What the checks of WellFormed refuse -/

theorem test_wf_rsvd_refused : WellFormed.rsvdZero 0x00000103#32 = false ∧ WellFormed.rsvdZero 0x80000001#32 = false := by decide

theorem test_wf_opc_refused : WellFormed.opcAssigned 0x00000000#32 = false ∧ WellFormed.opcAssigned 0x0000000B#32 = false ∧
    WellFormed.opcAssigned 0x000000FF#32 = false := by decide

theorem test_wf_command_word : WellFormed.commandWord 0x00000103#32 = false ∧ WellFormed.commandWord 0x0000000B#32 = false ∧
    WellFormed.commandWord 0x0000000A#32 = true := by decide

theorem test_wf_width_refused : WellFormed.widths [.write 3 0x1000#32 (.imm 0#32)] = false ∧
    WellFormed.widths [.read 8 .h0 0x1000#32] = false := by decide

theorem test_wf_undefined_label_refused : WellFormed.targetsDefined [.label 1, .jump 2] = false := by decide

theorem test_wf_second_label_refused : WellFormed.labelsUnique [.label 1, .halt, .label 1] = false := by decide

theorem test_wf_host_program : WellFormed.hostProgram [.jump 2] = false ∧
    WellFormed.hostProgram (pseudoRun .mul 1 ++ [.halt]) = true := by decide

/-! ### Words written out bit by bit: RSVD, then OPC -/

theorem test_decode_add : decode 0b000000000000000000000000_00000001#32 = .command .add := by decide
theorem test_decode_sub : decode 0b000000000000000000000000_00000010#32 = .command .sub := by decide
theorem test_decode_mul : decode 0b000000000000000000000000_00000011#32 = .command .mul := by decide
theorem test_decode_div : decode 0b000000000000000000000000_00000100#32 = .command .div := by decide
theorem test_decode_inv : decode 0b000000000000000000000000_00000101#32 = .command .inv := by decide
theorem test_decode_eval : decode 0b000000000000000000000000_00000110#32 = .command .eval := by decide
theorem test_decode_interp0 : decode 0b000000000000000000000000_00000111#32 = .command .interp0 := by decide
theorem test_decode_split : decode 0b000000000000000000000000_00001000#32 = .command .split := by decide
theorem test_decode_combine : decode 0b000000000000000000000000_00001001#32 = .command .combine := by decide
theorem test_decode_zeroize : decode 0b000000000000000000000000_00001010#32 = .command .zeroize := by decide

/-- 95_test_vectors.md section 2.4. -/
theorem test_decode_illegal :
    decode 0b000000000000000000000000_00000000#32 = .illegal .opcUnassigned ∧
    decode 0b000000000000000000000000_00001011#32 = .illegal .opcUnassigned ∧
    decode 0b000000000000000000000000_11111111#32 = .illegal .opcUnassigned ∧
    decode 0b000000000000000000000001_00000011#32 = .illegal .rsvdNonzero ∧
    decode 0b100000000000000000000000_00000001#32 = .illegal .rsvdNonzero := by decide

theorem test_table_word : decodeTableWord 32 3 = some .mul ∧ decodeTableWord 8 3 = some .mul ∧ decodeTableWord 32 0x103 = none := by
  decide

/-! ### Helpers -/

/-- The next state, if there is one. -/
def nextOf : Result → Option State
  | .next t => some t
  | .fault _ => none
  | .refused _ => none

/-- Blocks of bytes stored at window offsets. -/
def load (m : List (Nat × List Byte)) : Memory := m.foldl (fun acc p => writeBlock acc p.1 p.2) []

/-- A command word written to CMD by the host, and the engine to move next. -/
def issue (w : Word) (s : State) : State := { (memWrite 0x0C 4 w s).2 with schedule := [.engine] }

/-- What the completion step leaves in RESULT, STATUS and ERR_INFO. -/
def outcome (w : Word) (s : State) : Option (Byte × Word × Half) :=
  (nextOf (step (issue w s))).map fun t => (t.result, statusWord t.status, t.errInfo)

/-- What the completion step leaves in memory's bytes at the offsets given, in SECRET_LEN, COUNT and STATUS. -/
def written (w : Word) (s : State) (as : List Nat) : Option (List Byte × Half × Byte × Word) :=
  (nextOf (step (issue w s))).map fun t => (as.map (readByte t.mem), t.secretLen, t.count, statusWord t.status)

/-- The reset state with two operands, and RESULT as an earlier ADD left it (V-F5). -/
def withOperands (a b r : Byte) : State := { State.reset with opa := a, opb := b, result := r }

/-- The reset state with points for INTERP0. -/
def withPoints (xs ys : List Byte) : State :=
  { State.reset with count := BitVec.ofNat 8 xs.length, mem := load [(0x2000, xs), (0x2100, ys)] }

/-- The reset state with SECRET, its length, PARAM and random bytes for SPLIT. -/
def withSecret (secret : List Byte) (n k : Half) (draws : List Byte) : State :=
  { State.reset with
    secretLen := BitVec.ofNat 16 secret.length, paramN := n, paramK := k, mem := load [(0x10000, secret)], port := draws }

/-- The reset state with two shares and their lengths for COMBINE. -/
def withShares (count : Byte) (s0 s1 : List Byte) (l0 l1 : Byte) : State :=
  { State.reset with
    count := count, mem := load [(0x3000, [l0]), (0x3004, [l1]), (0x1000000, s0), (0x1010000, s1)] }

/-! ### The field functions -/

/-- V-F1. -/
theorem test_xtime : xtime 0x57#8 = 0xAE#8 ∧ xtime 0xAE#8 = 0x47#8 ∧ xtime 0x47#8 = 0x8E#8 ∧ xtime 0x8E#8 = 0x07#8 ∧
    xtime 0x80#8 = 0x1B#8 ∧ xtime 0xFF#8 = 0xE5#8 := by decide

/-- V-F6. -/
theorem test_gpow : gpow 0x02#8 8 = 0x1B#8 ∧ gpow 0x02#8 16 = 0x5E#8 ∧ gpow 0x03#8 16 = 0x5F#8 ∧ gpow 0x02#8 0 = 0x01#8 := by
  decide +kernel

/-- 40_field.md rule R123. -/
theorem test_gdiv : gdiv 0x01#8 0x02#8 = 0x8D#8 ∧ gdiv 0x02#8 0x01#8 = 0x02#8 ∧ gdiv 0x8D#8 0x02#8 = 0xCB#8 := by decide +kernel

/-! ### One completion step of each command -/

/-- V-F2. -/
theorem test_add : outcome 0x1#32 (withOperands 0x57#8 0x83#8 0x00#8) = some (0xD4#8, 0x00010002#32, 0x0000#16) := by
  decide +kernel

/-- V-F2. -/
theorem test_sub : outcome 0x2#32 (withOperands 0x57#8 0x83#8 0x00#8) = some (0xD4#8, 0x00020002#32, 0x0000#16) := by
  decide +kernel

/-- S1. -/
theorem test_mul : outcome 0x3#32 (withOperands 0x57#8 0x83#8 0x00#8) = some (0xC1#8, 0x00030002#32, 0x0000#16) := by
  decide +kernel

/-- V-F3. -/
theorem test_mul_reduction : outcome 0x3#32 (withOperands 0x80#8 0x80#8 0x00#8) = some (0x9A#8, 0x00030002#32, 0x0000#16) := by
  decide +kernel

/-- V-F4. -/
theorem test_div : outcome 0x4#32 (withOperands 0xC1#8 0x83#8 0x00#8) = some (0x57#8, 0x00040002#32, 0x0000#16) := by
  decide +kernel

/-- V-F4. -/
theorem test_div_zero : outcome 0x4#32 (withOperands 0x07#8 0x00#8 0xEE#8) = some (0xEE#8, 0x00043106#32, 0x0000#16) := by
  decide +kernel

/-- V-F5. -/
theorem test_inv : outcome 0x5#32 (withOperands 0x53#8 0x00#8 0xEE#8) = some (0xCA#8, 0x00050002#32, 0x0000#16) := by
  decide +kernel

/-- V-F5. -/
theorem test_inv_zero : outcome 0x5#32 (withOperands 0x00#8 0x12#8 0xEE#8) = some (0xEE#8, 0x00053006#32, 0x0000#16) := by
  decide +kernel

/-- V-P1. -/
theorem test_eval : outcome 0x6#32 { State.reset with count := 0x03#8, opa := 0xFF#8, mem := load [(0x1000, [0x53#8, 0x1D#8, 0x7F#8])] } =
    some (0x9D#8, 0x00060002#32, 0x0000#16) := by decide +kernel

/-- V-P1. -/
theorem test_eval_empty : outcome 0x6#32 { withOperands 0x07#8 0x00#8 0xEE#8 with mem := load [(0x1000, [0x53#8])] } =
    some (0x00#8, 0x00060002#32, 0x0000#16) := by decide +kernel

/-- V-P2. -/
theorem test_interp0 : outcome 0x7#32 (withPoints [0x80#8, 0xFF#8] [0x10#8, 0x20#8]) = some (0x53#8, 0x00070002#32, 0x0000#16) := by
  decide +kernel

/-- V-P2: the zero check comes before the duplicate check. -/
theorem test_interp0_zero_first : outcome 0x7#32 (withPoints [0x02#8, 0x00#8, 0x02#8] [0x01#8, 0x01#8, 0x01#8]) =
    some (0x00#8, 0x00072406#32, 0x0001#16) := by decide +kernel

/-- V-S1. -/
theorem test_split : written 0x8#32 (withSecret [0x41#8, 0x42#8] 3#16 2#16 [0x05#8, 0x9A#8])
      [0x1000000, 0x1000001, 0x1000002, 0x1010000, 0x1010001, 0x1010002, 0x1020000, 0x1020001, 0x1020002, 0x3000, 0x3004, 0x3008] =
    some ([0x01#8, 0x44#8, 0xD8#8, 0x02#8, 0x4B#8, 0x6D#8, 0x03#8, 0x4E#8, 0xF7#8, 0x03#8, 0x03#8, 0x03#8],
      0x0002#16, 0x03#8, 0x00080002#32) := by decide +kernel

/-- S4 (K < 2): no draw, no share. -/
theorem test_split_k_lt_2 :
    (nextOf (step (issue 0x8#32 (withSecret [0x41#8, 0x42#8] 5#16 1#16 [0x05#8, 0x9A#8])))).map
      (fun t => (statusWord t.status, t.port, readByte t.mem 0x1000000, t.count)) =
    some (0x00081106#32, [0x05#8, 0x9A#8], 0x00#8, 0x00#8) := by decide +kernel

/-- V-C1, shares 3 and 1. -/
theorem test_combine :
    written 0x9#32 (withShares 0x02#8 [0x03#8, 0x4E#8, 0xF7#8] [0x01#8, 0x44#8, 0xD8#8] 0x03#8 0x03#8) [0x10000, 0x10001] =
    some ([0x41#8, 0x42#8], 0x0002#16, 0x02#8, 0x00090002#32) := by decide +kernel

/-- V-C5: the length check comes before the index check. -/
theorem test_combine_length_first :
    outcome 0x9#32 (withShares 0x02#8 [0x00#8, 0x05#8] [0x01#8, 0x06#8, 0x07#8] 0x02#8 0x03#8) =
    some (0x00#8, 0x00092106#32, 0x0001#16) := by decide +kernel

/-- V-Z1. -/
theorem test_zeroize :
    (nextOf (step (issue 0xA#32 { withSecret [0x41#8] 3#16 2#16 [] with count := 0x03#8, irqEn := true }))).map
      (fun t => ((t.mem.length, t.count, t.paramN, t.secretLen), ctrlWord t.irqEn, t.cmd, statusWord t.status, irq t)) =
    some ((0, 0x00#8, 0x0000#16, 0x0000#16), 0x00000001#32, 0x0000000A#32, 0x000A0002#32, true) := by decide +kernel

/-- Section 2.4: LAST_OPC is CMD[7:0] though no MUL ran. -/
theorem test_illegal : outcome 0x103#32 (withOperands 0x57#8 0x83#8 0xEE#8) = some (0xEE#8, 0x00030106#32, 0x0000#16) := by
  decide +kernel

/-! ### The bus (section 2.5) and the hazards (section 2.6) -/

theorem test_bus_registers :
    memRead 0x00 4 State.reset = (.data 0x47463031#32, State.reset) ∧
    memRead 0x2C 4 State.reset = (.data 0x01FF0400#32, State.reset) ∧
    memRead 0x08 1 State.reset = (.busError, State.reset) ∧
    (memRead 0x10 4 (memWrite 0x10 4 0xFFFFFF57#32 State.reset).2).1 = .data 0x00000057#32 ∧
    (memRead 0x20 4 (memWrite 0x20 4 0x012C0003#32 State.reset).2).1 = .data 0x012C0003#32 ∧
    (memRead 0x24 4 (memWrite 0x24 4 0xABCD1234#32 State.reset).2).1 = .data 0x00001234#32 := by decide +kernel

theorem test_bus_buffers :
    (memRead 0x1000 4 (memWrite 0x1000 2 0xBBAA#32 State.reset).2).1 = .data 0x0000BBAA#32 ∧
    (memRead 0x3000 4 (memWrite 0x3000 4 0xFFFF0003#32 State.reset).2).1 = .data 0x00000003#32 ∧
    (memRead 0x3002 1 (memWrite 0x3002 1 0x55#32 State.reset).2).1 = .data 0x00#32 ∧
    (memWrite 0x10FE 4 0#32 State.reset).1 = .busError ∧ (memWrite 0x10FC 4 0#32 State.reset).1 = .ok := by decide +kernel

theorem test_bus_edges :
    [0x103FF, 0x1000400, 0x1FE0000].map (fun a => wellPlaced 1024 a 1) = [true, true, true] ∧
    [0x10400, 0x1000401, 0x1FF0000, 0x4000].map (fun a => wellPlaced 1024 a 1) = [false, false, false, false] ∧
    wellPlaced 1024 0x1000400 4 = false := by decide +kernel

/-- V-H1. -/
theorem test_busy :
    let s := (memWrite 0x0C 4 0x3#32 State.reset).2
    (memRead 0x08 4 s).1 = .data 0x00000001#32 ∧ (memWrite 0x10 4 1#32 s).1 = .busError ∧
    (memWrite 0x0C 4 3#32 s).1 = .busError ∧ (memWrite 0x1000 1 1#32 s).1 = .busError ∧
    (memWrite 0x04 4 1#32 s).1 = .ok ∧ (memWrite 0x04 4 2#32 s).2.phase = .idle := by decide +kernel

/-- 30_encoding.md rule R102: `W4 @0000000C = 00000003`. -/
theorem test_txn_text : txnText (.write 4 0x0C#32 0x3#32) .ok = "W4 @0000000C = 00000003".toList := by decide +kernel

/-- `WBYTES` writes one byte a line (P2). -/
theorem test_wbytes : pseudoWbytes 0x00010000#32 [0x41#8, 0x42#8] =
    [.write 1 0x00010000#32 (.imm 0x41#32), .write 1 0x00010001#32 (.imm 0x42#32)] := by decide

/-- A word placed by `withFetchWord` is what the very next step runs (log 8). -/
theorem test_fetch_word : (nextOf (step ((withOperands 0x57#8 0x83#8 0x00#8).withFetchWord 32 3))).map (·.result) =
    some 0xC1#8 := by decide +kernel

/-! ### States that meet the hypotheses of the obligations, one theorem each -/

/-- The reset state with a word in CMD. -/
def withCmd (w : Word) (s : State) : State := { s with cmd := w }

theorem witness_AStepRunsTheDecodedCommand :
    let s := { accept 0x8#32 (withSecret [0x41#8] 2#16 2#16 [0x05#8]) with schedule := [] }
    let u := { accept 0x8#32 (withSecret [0x41#8] 2#16 2#16 []) with schedule := [.engine, .host] }
    (s.phase = .busy ∧ decode s.cmd = .command .split ∧ s.schedule = [] ∧ s.order = .engineFirst ∧
      ¬(splitCheck s = none ∧ s.port.length < splitDraws s)) ∧
    (u.phase = .busy ∧ decode u.cmd = .command .split ∧ u.schedule = .engine :: [.host]) ∧
    ({ s with order := .hostOnly }.schedule = [] ∧ { s with order := .hostOnly }.order = .hostOnly) ∧
    ({ s with order := .free }.schedule = [] ∧ { s with order := .free }.order = .free) := by decide +kernel

/-- RSVD = 1, OPC = 0x00, OPC = 0x0B and OPC = 0xFF. -/
theorem witness_AnIllegalWordCompletesWithErrorOneOnly :
    let u := issue 0x0000000B#32 State.reset
    (0x00000101#32).extractLsb' 8 24 ≠ 0#24 ∧ (0x00000000#32).extractLsb' 0 8 = 0#8 ∧
    0x0B ≤ ((0x0000000B#32).extractLsb' 0 8).toNat ∧ 0x0B ≤ ((0x000000FF#32).extractLsb' 0 8).toNat ∧
    State.reset.phase = .idle ∧ u.phase = .busy ∧ u.cmd = 0x0000000B#32 ∧ u.schedule = .engine :: [] := by decide +kernel

theorem witness_TheEngineMovesOnlyWhileBusyAndThenCompletes :
    let s := { State.reset with schedule := [.engine] }
    let u := issue 0x8#32 (withSecret [0x41#8] 2#16 2#16 [0x05#8])
    (s.schedule = .engine :: [] ∧ s.phase = .idle) ∧
    (u.schedule = .engine :: [] ∧ u.phase = .busy ∧
      ¬(decode u.cmd = .command .split ∧ splitCheck u = none ∧ u.port.length < splitDraws u)) := by decide +kernel

/-- A MUL accepted, the host at the start of `WAIT` and nothing scheduled. -/
def waiting (o : Order) : State :=
  { accept 0x3#32 (withOperands 0x57#8 0x83#8 0x00#8) with host := { HostAgent.start with program := pseudoWait 1 }, order := o }

/-- The clauses about the three orders (70_reset_and_hazards.md rule R261). -/
theorem witness_TheEngineMovesOnlyWhileBusyAndThenCompletes_orders :
    let s := waiting .engineFirst
    let u := waiting .hostOnly
    (s.schedule = [] ∧ s.order = .engineFirst ∧ s.phase = .busy ∧ decode s.cmd ≠ .command .split) ∧
    (u.schedule = [] ∧ u.order = .hostOnly ∧ u.status.done = false ∧ (nextOf (step u)).isSome = true) ∧
    (u.phase = .busy ∧ u.status.busy = true ∧ u.host.program = pseudoWait 1 ∧ u.host.line = 0 ∧
      u.host.outcome = .running) := by decide +kernel

/-- R261: engine first, the MUL completes at once; host only, it does not. -/
theorem test_orders :
    (nextOf (step (waiting .engineFirst))).map (fun t => (t.phase, t.result, t.host.line)) = some (.idle, 0xC1#8, 0) ∧
    (nextOf (step (waiting .hostOnly))).map (fun t => (t.phase, t.result, t.host.line)) = some (.busy, 0x00#8, 1) := by
  decide +kernel

theorem witness_AddWritesTheXorOfItsOperands : (withCmd 0x1#32 State.reset).cmd = 0x00000001#32 := rfl
theorem witness_SubWritesTheXorOfItsOperands : (withCmd 0x2#32 State.reset).cmd = 0x00000002#32 := rfl
theorem witness_MulWritesTheFieldProduct : (withCmd 0x3#32 State.reset).cmd = 0x00000003#32 := rfl

/-- The least nonzero divisor, and a zero divisor with a nonzero and with a zero dividend. -/
theorem witness_DivWritesTheQuotientOrRaisesDivZero :
    let s := withCmd 0x4#32 (withOperands 0x07#8 0x01#8 0x00#8)
    let u := withCmd 0x4#32 (withOperands 0x07#8 0x00#8 0x00#8)
    let v := withCmd 0x4#32 (withOperands 0x00#8 0x00#8 0x00#8)
    (s.cmd = 0x00000004#32 ∧ s.opb ≠ 0x00#8) ∧ (u.cmd = 0x00000004#32 ∧ u.opb = 0x00#8) ∧
    (v.cmd = 0x00000004#32 ∧ v.opb = 0x00#8) := by decide

theorem witness_InvWritesTheInverseOrRaisesInvZero :
    let s := withCmd 0x5#32 (withOperands 0x01#8 0x00#8 0x00#8)
    let u := withCmd 0x5#32 (withOperands 0x00#8 0x07#8 0x00#8)
    (s.cmd = 0x00000005#32 ∧ s.opa ≠ 0x00#8) ∧ (u.cmd = 0x00000005#32 ∧ u.opa = 0x00#8) := by decide

theorem witness_TheInverseIsThe254thPowerAndUnique : (0x01#8 : Byte) ≠ 0x00#8 ∧ (0xFF#8 : Byte) ≠ 0x00#8 := by decide

theorem witness_DivisionUndoesMultiplication : (0x01#8 : Byte) ≠ 0x00#8 ∧ (0xFF#8 : Byte) ≠ 0x00#8 := by decide

/-- The reset state itself has no coefficient; the other has the most. -/
theorem witness_EvalWritesTheHornerValue :
    (withCmd 0x6#32 State.reset).cmd = 0x00000006#32 ∧ (withCmd 0x6#32 { State.reset with count := 0xFF#8 }).cmd = 0x00000006#32 := by
  decide

/-- A zero at the last of 255 positions; a first repeat at position 1 of 255; position 2 repeating position 0. -/
theorem witness_CheckIndicesReportsTheFirstBadIndex :
    let zs : List Byte := List.replicate 254 0x01#8 ++ [0x00#8]
    let ds : List Byte := 0x01#8 :: 0x01#8 :: List.replicate 253 0x02#8
    let es : List Byte := [0x01#8, 0x02#8, 0x01#8]
    (zs.length ≤ 255 ∧ 254 < zs.length ∧ zs.getD 254 0x01#8 = 0x00#8 ∧ (∀ k < 254, zs.getD k 0x01#8 ≠ 0x00#8)) ∧
    (ds.length ≤ 255 ∧ 0 < 1 ∧ 1 < ds.length ∧ 0x00#8 ∉ ds ∧ ds.getD 0 0x00#8 = ds.getD 1 0x00#8 ∧
      (∀ k < 0, ds.getD k 0x00#8 ≠ ds.getD 1 0x00#8) ∧ (∀ j' < 1, ∀ k < j', ds.getD k 0x00#8 ≠ ds.getD j' 0x00#8)) ∧
    (es.length ≤ 255 ∧ 0 < 2 ∧ 2 < es.length ∧ 0x00#8 ∉ es ∧ es.getD 0 0x00#8 = es.getD 2 0x00#8 ∧
      (∀ k < 0, es.getD k 0x00#8 ≠ es.getD 2 0x00#8) ∧ (∀ j' < 2, ∀ k < j', es.getD k 0x00#8 ≠ es.getD j' 0x00#8)) := by
  decide +kernel

/-- COUNT = 1; COUNT = 2 with a zero and with a repeated x coordinate; COUNT = 2 with the points of S5. -/
theorem witness_Interp0InterpolatesOrReportsItsFirstCheck :
    let xs (s : State) : List Byte := (List.range s.count.toNat).map fun j => readByte s.mem (pxAddr j)
    let s1 := withCmd 0x7#32 (withPoints [0x01#8] [0x05#8])
    let sz := withCmd 0x7#32 (withPoints [0x00#8, 0x01#8] [0x01#8, 0x02#8])
    let sd := withCmd 0x7#32 (withPoints [0x01#8, 0x01#8] [0x01#8, 0x02#8])
    let s2 := withCmd 0x7#32 (withPoints [0x01#8, 0x02#8] [0x44#8, 0x4B#8])
    (s1.cmd = 0x00000007#32 ∧ s1.count.toNat < 2) ∧
    (sz.cmd = 0x00000007#32 ∧ 2 ≤ sz.count.toNat ∧ checkIndices (xs sz) = some (.zeroIndex, 0x0000#16)) ∧
    (sd.cmd = 0x00000007#32 ∧ 2 ≤ sd.count.toNat ∧ checkIndices (xs sd) = some (.dupIndex, 0x0001#16)) ∧
    (s2.cmd = 0x00000007#32 ∧ 2 ≤ s2.count.toNat ∧ checkIndices (xs s2) = none) := by decide +kernel

/-- As many coefficients as points, and none. -/
theorem witness_InterpolationRecoversTheConstantTerm :
    let xs : List Byte := [0x01#8, 0xFF#8]
    2 ≤ xs.length ∧ xs.Nodup ∧ 0x00#8 ∉ xs ∧ [0x41#8, 0x05#8].length ≤ xs.length ∧ ([] : List Byte).length ≤ xs.length := by
  decide

theorem witness_InterpolationDoesNotDependOnTheOrderOfPoints :
    let ps : List (Byte × Byte) := [(0x01#8, 0x44#8), (0x02#8, 0x4B#8)]
    let qs : List (Byte × Byte) := [(0x02#8, 0x4B#8), (0x01#8, 0x44#8)]
    ps.Perm qs ∧ 2 ≤ ps.length ∧ (ps.map Prod.fst).Nodup ∧ 0x00#8 ∉ ps.map Prod.fst := by decide

/-- SPLIT's checks and draws, on a state, as one decidable statement. -/
theorem splitReady_of {s : State} (h : splitCheck s = none ∧ splitDraws s ≤ s.port.length) : SplitReady s := by
  obtain ⟨h, hp⟩ := h
  rw [splitCheck_none] at h
  exact ⟨h.1, h.2.2.2.2, h.2.1, h.2.2.1, h.2.2.2.1, hp⟩

/-- The least sizes (L = 1, K = N = 2) and the greatest threshold and share number (K = N = 255). -/
theorem witness_SplitWritesEveryShareAndNothingElse :
    let s := withCmd 0x8#32 (withSecret [0x41#8] 2#16 2#16 [0x05#8])
    let u := withCmd 0x8#32 (withSecret [0x41#8] 255#16 255#16 (List.replicate 254 0x01#8))
    (s.cmd = 0x00000008#32 ∧ s.lmax ≤ Config.lmaxGreatest ∧ SplitReady s) ∧
    (u.cmd = 0x00000008#32 ∧ u.lmax ≤ Config.lmaxGreatest ∧ SplitReady u) :=
  ⟨⟨rfl, by decide, splitReady_of (by decide +kernel)⟩, ⟨rfl, by decide, splitReady_of (by decide +kernel)⟩⟩

/-- V-S7, at the values where the checks meet, and the greatest values that pass. -/
theorem witness_SplitReportsItsFirstFailingCheck :
    let st (l n k : Half) : State :=
      { accept 0x8#32 State.reset with secretLen := l, paramN := n, paramK := k }
    let s0 := st 0 0 1
    let s1 := st 2 0 1
    let s2 := st 2 1 2
    let s3 := st 2 256 256
    let s4 := st 1025 255 255
    let s5 := st 1024 255 255
    (s0.cmd = 0x00000008#32 ∧ s0.secretLen.toNat = 0) ∧
    (s1.secretLen.toNat ≠ 0 ∧ s1.paramK.toNat < 2) ∧
    (s2.secretLen.toNat ≠ 0 ∧ 2 ≤ s2.paramK.toNat ∧ s2.paramN.toNat < s2.paramK.toNat) ∧
    (s3.secretLen.toNat ≠ 0 ∧ 2 ≤ s3.paramK.toNat ∧ s3.paramK.toNat ≤ s3.paramN.toNat ∧ 255 < s3.paramN.toNat) ∧
    (s4.secretLen.toNat ≠ 0 ∧ 2 ≤ s4.paramK.toNat ∧ s4.paramK.toNat ≤ s4.paramN.toNat ∧ s4.paramN.toNat ≤ 255 ∧
      s4.lmax < s4.secretLen.toNat) ∧
    (s5.secretLen.toNat ≠ 0 ∧ 2 ≤ s5.paramK.toNat ∧ s5.paramK.toNat ≤ s5.paramN.toNat ∧ s5.paramN.toNat ≤ 255 ∧
      s5.secretLen.toNat ≤ s5.lmax ∧ s5.phase = .busy ∧ s5.cmd = 0x00000008#32) ∧
    (nextOf (exec .split s5)).isSome = true := by decide +kernel

/-- One draw short. -/
theorem witness_SplitIsHeldWhileItsDrawsAreMissing :
    let s := accept 0x8#32 (withSecret [0x41#8, 0x42#8] 3#16 2#16 [0x05#8])
    s.phase = .busy ∧ s.cmd = 0x00000008#32 ∧ 1 ≤ s.secretLen.toNat ∧ s.secretLen.toNat ≤ s.lmax ∧ 2 ≤ s.paramK.toNat ∧
    s.paramK.toNat ≤ s.paramN.toNat ∧ s.paramN.toNat ≤ 255 ∧ s.port.length < s.secretLen.toNat * (s.paramK.toNat - 1) := by
  decide +kernel

/-- Two shares of the least length 2, which with LMAX = 1 is also the greatest. -/
theorem witness_CombineRecoversEveryPayloadPosition :
    let s := { withCmd 0x9#32 (withShares 0x02#8 [0x01#8, 0x44#8] [0x02#8, 0x4B#8] 0x02#8 0x02#8) with lmax := 1 }
    s.cmd = 0x00000009#32 ∧ CombineReady 2#16 s :=
  ⟨rfl, by decide +kernel, by decide +kernel, by decide, by decide, by decide +kernel, by decide +kernel⟩

/-- V-C5: one share; a differing length; lengths 1 and 1026; a zero and a repeated index. -/
theorem witness_CombineReportsItsFirstFailingCheck :
    let sd := withCmd 0x9#32 (withShares 0x02#8 [0x01#8, 0x05#8] [0x01#8, 0x06#8] 0x02#8 0x02#8)
    let s1 := withCmd 0x9#32 (withShares 0x01#8 [0x01#8, 0x44#8] [] 0x02#8 0x00#8)
    let sl := withCmd 0x9#32 (withShares 0x02#8 [0x01#8, 0x44#8] [0x03#8, 0x4E#8] 0x02#8 0x03#8)
    let ss := withCmd 0x9#32 (withShares 0x02#8 [0x01#8, 0x05#8] [0x02#8, 0x06#8] 0x01#8 0x01#8)
    let sg := withCmd 0x9#32 { State.reset with
      count := 0x02#8, mem := load [(0x3000, [0x02#8, 0x04#8]), (0x3004, [0x02#8, 0x04#8])] }
    let sz := withCmd 0x9#32 (withShares 0x02#8 [0x01#8, 0x05#8] [0x00#8, 0x06#8] 0x02#8 0x02#8)
    (s1.cmd = 0x00000009#32 ∧ s1.count.toNat < 2) ∧
    (sl.cmd = 0x00000009#32 ∧ 2 ≤ sl.count.toNat ∧ 1 < sl.count.toNat ∧ slen sl.mem 1 ≠ slen sl.mem 0 ∧
      ∀ k < 1, slen sl.mem k = slen sl.mem 0) ∧
    (ss.cmd = 0x00000009#32 ∧ 2 ≤ ss.count.toNat ∧ (∀ j < ss.count.toNat, slen ss.mem j = slen ss.mem 0) ∧
      (slen ss.mem 0).toNat < 2) ∧
    (sg.cmd = 0x00000009#32 ∧ 2 ≤ sg.count.toNat ∧ (∀ j < sg.count.toNat, slen sg.mem j = slen sg.mem 0) ∧
      2 ≤ (slen sg.mem 0).toNat ∧ sg.lmax + 1 < (slen sg.mem 0).toNat) ∧
    (sz.cmd = 0x00000009#32 ∧ 2 ≤ sz.count.toNat ∧ (∀ j < sz.count.toNat, slen sz.mem j = slen sz.mem 0) ∧
      2 ≤ (slen sz.mem 0).toNat ∧ (slen sz.mem 0).toNat ≤ sz.lmax + 1 ∧
      checkIndices ((List.range sz.count.toNat).map fun j => readByte sz.mem (slotAddr j 0)) = some (.zeroIndex, 0x0001#16)) ∧
    (sd.cmd = 0x00000009#32 ∧ 2 ≤ sd.count.toNat ∧ (∀ j < sd.count.toNat, slen sd.mem j = slen sd.mem 0) ∧
      2 ≤ (slen sd.mem 0).toNat ∧ (slen sd.mem 0).toNat ≤ sd.lmax + 1 ∧
      checkIndices ((List.range sd.count.toNat).map fun j => readByte sd.mem (slotAddr j 0)) = some (.dupIndex, 0x0001#16)) := by
  decide +kernel

theorem witness_ZeroizeClearsBuffersAndOperands : (withCmd 0xA#32 State.reset).cmd = 0x0000000A#32 := rfl

/-- S5: share x = 3, the last, at payload byte i = 1, the last. -/
theorem witness_EvalGivesTheByteSplitWrites :
    let s := withSecret [0x41#8, 0x42#8] 3#16 2#16 [0x05#8, 0x9A#8]
    let u := { State.reset with opa := 0x03#8, count := 0x02#8, mem := load [(0x1000, [0x42#8, 0x9A#8])] }
    ∃ t, exec .split s = .next t ∧ s.lmax ≤ Config.lmaxGreatest ∧ SplitReady s ∧ 1 ≤ 3 ∧ 3 ≤ s.paramN.toNat ∧
      1 < s.secretLen.toNat ∧ u.opa = BitVec.ofNat 8 3 ∧ u.count.toNat = s.paramK.toNat ∧
      ∀ d < s.paramK.toNat, readByte u.mem (coefAddr d) =
        (readByte s.mem (secretAddr 1) ::
          (s.port.drop (1 * (s.paramK.toNat - 1))).take (s.paramK.toNat - 1)).getD d 0x00#8 := by
  obtain ⟨t, h⟩ := exec_next .split (withSecret [0x41#8, 0x42#8] 3#16 2#16 [0x05#8, 0x9A#8])
  exact ⟨t, h, by decide, splitReady_of (by decide +kernel), by decide, by decide, by decide, by decide, by decide,
    by decide +kernel⟩

/-- S5: the split, then its shares 3 and 1 in slots 0 and 1. -/
theorem witness_CombineOfAnyKSharesRecoversTheSecret :
    let s := withSecret [0x41#8, 0x42#8] 3#16 2#16 [0x05#8, 0x9A#8]
    let t := succeed (splitWrites s)
    let xs := [3, 1]
    let u := withShares 0x02#8 [0x03#8, 0x4E#8, 0xF7#8] [0x01#8, 0x44#8, 0xD8#8] 0x03#8 0x03#8
    s.lmax ≤ Config.lmaxGreatest ∧ (splitCheck s = none ∧ splitDraws s ≤ s.port.length) ∧
    nextOf (exec .split s) = some t ∧
    xs.Nodup ∧ (∀ x ∈ xs, 1 ≤ x ∧ x ≤ s.paramN.toNat) ∧ s.paramK.toNat ≤ xs.length ∧ u.count.toNat = xs.length ∧
    u.lmax = s.lmax ∧
    ∀ j < xs.length, (slen u.mem j).toNat = s.secretLen.toNat + 1 ∧
      ∀ b < s.secretLen.toNat + 1, readByte u.mem (slotAddr j b) = readByte t.mem (slotAddr (xs.getD j 0 - 1) b) := by
  decide +kernel

theorem witness_AFailedCommandWritesOnlyStatusAndErrInfo :
    let s := accept 0x4#32 (withOperands 0x07#8 0x00#8 0xEE#8)
    s.phase = .busy ∧ (nextOf (exec .div s)).map (fun t => (t.phase, t.status.errf)) = some (.idle, true) := by decide +kernel

theorem witness_AnErrorDoesNotDependOnTheDraws :
    let s := accept 0x8#32 (withSecret [0x41#8] 5#16 1#16 [0x05#8])
    s.phase = .busy ∧ (nextOf (exec .split s)).map (fun t => (t.phase, t.status.errf)) = some (.idle, true) := by decide +kernel

theorem witness_InterpolationRaisesNoDomainError :
    (∃ s t : State, exec .interp0 s = .next t ∨ exec .combine s = .next t) ∧
    (let xs : List Byte := [0x01#8, 0xFF#8]
     checkIndices xs = none ∧ 0 < xs.length ∧ 1 < xs.length ∧ 0 ≠ 1) :=
  ⟨⟨State.reset, (exec_next .interp0 State.reset).imp fun _ h => .inl h⟩, by decide⟩

theorem witness_OnlyZeroizeWritesOperandRegistersAndOperandBuffers :
    ∃ s t : State, exec .split s = .next t ∧ Instr.split ≠ .zeroize ∧ 255 < 256 :=
  ⟨State.reset, (exec_next .split State.reset).imp fun _ h => ⟨h, by decide, by decide⟩⟩

theorem witness_OnlySplitDrawsRandomBytes :
    (∃ s t : State, exec .split s = .next t ∧ s.port = [0x05#8]) ∧
    { State.reset with schedule := [.rng 0x05#8, .host] }.schedule = .rng 0x05#8 :: [.host] :=
  ⟨⟨withSecret [0x41#8] 2#16 2#16 [0x05#8], (exec_next .split _).imp fun _ h => ⟨h, rfl⟩⟩, rfl⟩

theorem witness_ACommandDependsOnlyOnTheUnitAndItsDraws : ∃ s t : State, exec .eval s = .next t :=
  ⟨State.reset, exec_next .eval State.reset⟩

/-- The first and the last access of each region, for the least and the greatest LMAX. -/
theorem witness_TheWindowMapIsTheSpecsMap :
    1 ≤ Config.lmaxGreatest ∧ 65534 ≤ Config.lmaxGreatest ∧
    wellPlaced 1 0x0 4 = true ∧ wellPlaced 1 0xFC 4 = true ∧ wellPlaced 1 0x1000 1 = true ∧ wellPlaced 1 0x10FE 2 = true ∧
    wellPlaced 1 0x20FC 4 = true ∧ wellPlaced 1 0x21FF 1 = true ∧ wellPlaced 1 0x33FC 4 = true ∧
    wellPlaced 1 0x10000 1 = true ∧ wellPlaced 1 0x10001 1 = false ∧ wellPlaced 65534 0x1FFFD 1 = true ∧
    wellPlaced 65534 0x1FFFE 1 = false ∧ wellPlaced 65534 0x1FEFFFE 1 = true ∧ wellPlaced 65534 0x1FEFFFF 1 = false := by
  decide +kernel

theorem witness_ABusErrorChangesNothing :
    (memRead 0x4000 4 State.reset).1 = .busError ∧ (memWrite 0x4000 4 0#32 State.reset).1 = .busError ∧
    (memWrite 0x1000 1 0#32 (accept 0x3#32 State.reset)).1 = .busError := by decide +kernel

theorem witness_WhileBusyOnlyCtrlCanBeWritten :
    (accept 0x3#32 State.reset).phase = .busy ∧ ¬((0x04 : Nat) = 0x04 ∧ (2 : Nat) = 4) ∧
    (0x00000001#32).getLsbD 1 = false ∧ (0x00000002#32).getLsbD 1 = true := by decide

theorem witness_ReadsHaveNoSideEffects : State.reset.phase = .idle := rfl

theorem witness_BusyReadsOfTheFiveRegistersAreExact :
    let s := accept 0x3#32 State.reset
    s.phase = .busy ∧ ∀ off ∈ [0x10, 0x28, 0x30, 0xFC, 0x1000], wellPlaced s.lmax off 4 = true ∧
      off ∉ [0x00, 0x04, 0x08, 0x0C, 0x2C] := by decide +kernel

theorem witness_IdleReadsShowTheRegisters :
    State.reset.phase = .idle ∧ State.reset.lmax < 65536 ∧ 12 ≤ 63 ∧ 63 < 64 := by decide

theorem witness_IdleRegisterWritesKeepOnlyTheirFields :
    State.reset.phase = .idle ∧ (0xFFFFFFFD#32).getLsbD 1 = false ∧ (0x00000002#32).getLsbD 1 = true ∧ 12 ≤ 63 ∧ 63 < 64 := by
  decide

/-- A write to COEF, and one to both halves of a SHARE_LEN word. -/
theorem witness_ABufferWriteStoresItsBytesAndNoOthers :
    State.reset.phase = .idle ∧ (∀ off ∈ [0x10FC, 0x3000, 0x33FC], wellPlaced State.reset.lmax off 4 = true ∧
      regionOf State.reset.lmax off ≠ .regs) ∧
    ¬(0x3000 ≤ 0x3000 + 1 ∧ 0x3000 + 1 < 0x3400 ∧ 2 ≤ (0x3000 + 1) % 4) ∧
    (0x3000 ≤ 0x33FC + 3 ∧ 0x33FC + 3 < 0x3400 ∧ 2 ≤ (0x33FC + 3) % 4) := by decide +kernel

theorem witness_ABufferReadIsLittleEndian :
    State.reset.phase = .idle ∧ (∀ off ∈ [0x10FC, 0x3000, 0x33FC], wellPlaced State.reset.lmax off 4 = true ∧
      regionOf State.reset.lmax off ≠ .regs) := by decide +kernel

theorem witness_AcceptanceStoresTheWordAndSetsBusy :
    State.reset.phase = .idle ∧ (accept 0x3#32 State.reset).phase = .busy := by decide

/-- The host at a line `W32 0x0C, 0x3` in an IDLE state, scheduled and by default. -/
theorem witness_OnlyACmdWriteStartsACommand :
    let s := { State.reset with host := { HostAgent.start with program := pseudoCmd .mul }, schedule := [.host] }
    let u := { s with schedule := [] }
    (s.phase = .idle ∧ (nextOf (step s)).map (·.phase) = some .busy) ∧
    (u.phase = .idle ∧ (nextOf (step u)).map (·.phase) = some .busy) := by decide +kernel

/-- The host at a line `W32 0x04, 0x1` while a command runs, and the engine at a held SPLIT. -/
theorem witness_AHostMoveWhileBusyKeepsTheOperands :
    let s := { accept 0x3#32 State.reset with
      host := { HostAgent.start with program := [.write 4 0x04#32 (.imm 1#32)] }, schedule := [.host] }
    let u := { accept 0x8#32 (withSecret [0x41#8] 2#16 2#16 []) with schedule := [.engine] }
    (s.phase = .busy ∧ s.schedule = .host :: [] ∧
      (nextOf (step s)).map (fun t => (t.irqEn, t.phase)) = some (true, .busy)) ∧
    (u.phase = .busy ∧ (nextOf (step u)).map (·.phase) = some .busy) := by decide +kernel

theorem witness_ErrChangesOnlyAtCompletionOrReset :
    (nextOf (step State.reset)).isSome = true ∧ (nextOf (step (issue 0x5#32 State.reset))).map (·.status.err) = some 0x30#8 := by
  decide +kernel

theorem witness_IrqIsDoneAndIrqEnable :
    let s := { accept 0x1#32 State.reset with irqEn := true }
    s.phase = .busy ∧ (nextOf (exec .add s)).map (fun t => (t.phase, irq t)) = some (.idle, true) ∧ State.reset.phase = .idle := by
  decide +kernel

theorem witness_HardResetPutsTheUnitAtItsResetValues :
    { accept 0x3#32 State.reset with schedule := [.rst] }.schedule = .rst :: [] := rfl

theorem witness_SoftResetIsAHardReset : (0xFFFFFFFF#32).getLsbD 1 = true ∧ (0xFFFFFFFD#32).getLsbD 1 = false := by decide

theorem witness_AResetWhileBusyEndsTheCommandUnreported : (accept 0x3#32 State.reset).phase = .busy := rfl

/-- A state that meets Inv and is not the reset state: an interrupt enabled and COEF[0] written. -/
theorem witness_EveryStepKeepsTheInvariant :
    ∃ s t : State, Inv s ∧ step s = .next t ∧ s.irqEn = true ∧ readByte s.mem 0x1000 = 0xAA#8 := by
  let s : State := { State.reset with irqEn := true, mem := [(0x1000, 0xAA#8)], schedule := [.rng 0x05#8] }
  exact ⟨s, supplyByte 0x05#8 { s with schedule := [] },
    ⟨by decide, by decide, by decide, by decide, by decide, by decide, ⟨.ok, rfl⟩, .inl rfl⟩, rfl, rfl, rfl⟩

theorem witness_WellFormedHostProgramsNeverStop :
    WellFormed.hostProgram (pseudoRun .mul 1 ++ [.halt]) = true ∧
    2 ∉ WellFormed.labels (pseudoRun .mul 1 ++ [.halt]) := by decide

/-- The host at its line, past its last line, halted and stopped by a bus error; and a label that is found. -/
theorem witness_HostLinesComputeAndBranch :
    let s (line : Nat) (o : HostOutcome) : State :=
      { State.reset with host := { HostAgent.start with program := [.halt], line := line, outcome := o }, schedule := [.host] }
    ((s 0 .running).schedule = .host :: [] ∧ (s 0 .running).host.outcome = .running ∧
      (s 0 .running).host.program[(s 0 .running).host.line]? = some .halt) ∧
    ((s 1 .running).schedule = .host :: [] ∧ (s 1 .running).host.program[(s 1 .running).host.line]? = none) ∧
    (s 0 .halted).host.outcome = .halted ∧ (s 0 .buserr).host.outcome = .buserr ∧
    labelLine (pseudoRun .mul 7 ++ [.halt]) 7 = some 1 := by decide

theorem witness_HostTransactionsReachTheWindowWhereverItStands :
    (memRead (0x00#32).toNat 4 State.reset).1 = .data 0x47463031#32 ∧ (memRead (0x4000#32).toNat 4 State.reset).1 = .busError ∧
    (memWrite (0x10#32).toNat 4 0x57#32 State.reset).1 = .ok ∧ (memWrite (0x4000#32).toNat 4 0#32 State.reset).1 = .busError := by
  decide +kernel

end Sys2Proof.Tests
end

/-! ## Proofs of the statements about the unit's state (10_state.md)

First the laws these proofs share: how a command ends, what a bus access to a register does while IDLE, and what a step
can do to a BUSY unit. Then the theorems that settle the obligations. -/

namespace Sys2Proof.Machine

/-! ### Empty memory -/

@[simp] theorem slen_nil (j : Nat) : slen [] j = 0x0000#16 := by
  rw [slen, readByte_nil, readByte_nil]; rfl

/-! ### How a command ends -/

/-- A command is a SPLIT held for its draws, which changes nothing, or it completes. -/
theorem exec_held_or_completes {i : Instr} {s t : State} (h : exec i s = .next t) :
    t = s ∨ (t.phase = .idle ∧ t.status.done = true) := by
  by_cases hh : i = .split ∧ splitCheck s = none ∧ s.port.length < splitDraws s
  · obtain ⟨rfl, hc, hp⟩ := hh
    simp only [exec, execSplit, hc, if_pos hp] at h
    exact .inl (Host.Outcome.next.inj h).symm
  · obtain ⟨code, info, u, rfl, -⟩ := exec_finish h hh
    exact .inr ⟨rfl, rfl⟩

/-- SPLIT's writes stay above POINT_X, POINT_Y and COEF. -/
theorem readByte_splitWrites_low {s : State} {a : Nat} (ha : a < 0x3000) :
    readByte (splitWrites s).mem a = readByte s.mem a :=
  readByte_writeShares_outside fun j _ => by
    refine ⟨.inl ?_, ?_, ?_⟩ <;> simp only [slotAddr, slenAddr] <;> omega

/-- COMBINE's writes stay above POINT_X, POINT_Y and COEF. -/
theorem readByte_combineWrites_low {s : State} {a : Nat} (ha : a < 0x3000) :
    readByte (combineWrites s).mem a = readByte s.mem a :=
  readByte_writeBlock_outside _ _ _ (.inl (by simp only [secretAddr]; omega))

/-- No command but ZEROIZE writes OPA, OPB or PARAM, or a byte below SHARE_LEN. -/
theorem exec_keeps_operands {i : Instr} {s t : State} (h : exec i s = .next t) (hi : i ≠ .zeroize) :
    t.opa = s.opa ∧ t.opb = s.opb ∧ t.paramK = s.paramK ∧ t.paramN = s.paramN ∧
      ∀ a < 0x3000, readByte t.mem a = readByte s.mem a := by
  rcases exec_cases h with ⟨_, _, -, -, rfl⟩ | ⟨-, -, -, rfl⟩ | ⟨-, _, rfl⟩ | ⟨-, -, -, rfl⟩ | ⟨-, -, rfl⟩ | ⟨rfl, -⟩
  · exact ⟨rfl, rfl, rfl, rfl, fun _ _ => rfl⟩
  · exact ⟨rfl, rfl, rfl, rfl, fun _ _ => rfl⟩
  · exact ⟨rfl, rfl, rfl, rfl, fun _ _ => rfl⟩
  · exact ⟨rfl, rfl, rfl, rfl, fun _ ha => readByte_splitWrites_low ha⟩
  · exact ⟨rfl, rfl, rfl, rfl, fun _ ha => readByte_combineWrites_low ha⟩
  · exact absurd rfl hi

/-! ### What a command does not read (10_state.md rule R50) -/

/-- A state of the same unit and port, at another place in the address space and among other agents. -/
def placedAmong (h : HostAgent) (sch : List Move) (o : Order) (base : Word) (j k : Nat) (s : State) : State :=
  { s with host := h, schedule := sch, order := o, base := base, freeMoves := j, freeReads := k }

theorem exec_placedAmong {i : Instr} {s t : State} (h : HostAgent) (sch : List Move) (o : Order) (base : Word) (j k : Nat)
    (e : exec i s = .next t) : exec i (placedAmong h sch o base j k s) = .next (placedAmong h sch o base j k t) := by
  -- Each check is computed from fields `placedAmong` leaves alone, so both runs take the same branch.
  cases i with
  | add | sub | mul | eval | zeroize => cases Host.Outcome.next.inj e; rfl
  | div =>
    simp only [exec, execDiv] at e
    split at e
    · rename_i hb; cases Host.Outcome.next.inj e; exact if_pos hb
    · rename_i hb; cases Host.Outcome.next.inj e; exact if_neg hb
  | inv =>
    simp only [exec, execInv] at e
    split at e
    · rename_i ha; cases Host.Outcome.next.inj e; exact if_pos ha
    · rename_i ha; cases Host.Outcome.next.inj e; exact if_neg ha
  | interp0 =>
    have check : interp0Check (placedAmong h sch o base j k s) = interp0Check s := rfl
    simp only [exec, execInterp0, check] at e ⊢
    split at e <;> cases Host.Outcome.next.inj e <;> rfl
  | split =>
    have check : splitCheck (placedAmong h sch o base j k s) = splitCheck s := rfl
    simp only [exec, execSplit, check] at e ⊢
    split at e
    · cases Host.Outcome.next.inj e; rfl
    · split at e
      · rename_i hp; cases Host.Outcome.next.inj e; exact if_pos hp
      · rename_i hp; cases Host.Outcome.next.inj e; exact if_neg hp
  | combine =>
    have check : combineCheck (placedAmong h sch o base j k s) = combineCheck s := rfl
    simp only [exec, execCombine, check] at e ⊢
    split at e <;> cases Host.Outcome.next.inj e <;> rfl

/-! ### Register accesses while IDLE (20_memory.md rules R64 and R65) -/

theorem regionOf_regs {lmax off : Nat} (h : off < 0x100) : regionOf lmax off = .regs := if_pos h

theorem wellPlaced_regs {lmax off : Nat} (h : off < 0x100) (h4 : off % 4 = 0) : wellPlaced lmax off 4 = true := by
  have inside : ∀ k < 4, regionOf lmax (off + k) = .regs := fun k hk => regionOf_regs (by omega)
  simpa [wellPlaced, regionOf_regs h, h4] using inside

theorem memRead_register {s : State} (hp : s.phase = .idle) {off : Nat} (h : off < 0x100) (h4 : off % 4 = 0) :
    memRead off 4 s = (.data (readReg s (regAt off)), s) := by
  simp [memRead, wellPlaced_regs h h4, regionOf_regs h, hp]

theorem memWrite_register {s : State} (hp : s.phase = .idle) {off : Nat} (h : off < 0x100) (h4 : off % 4 = 0) (v : Word) :
    memWrite off 4 v s = (.ok, writeReg (regAt off) v s) := by
  simp [memWrite, writeGated, wellPlaced_regs h h4, regionOf_regs h, hp]

theorem regAt_reserved {off : Nat} (h : 0x30 ≤ off) : regAt off = .reserved := by
  unfold regAt
  split
  any_goals omega
  rfl

/-- No read shows the random-byte port. -/
theorem memRead_port (off n : Nat) (bytes : List Byte) (s : State) :
    (memRead off n { s with port := bytes }).1 = (memRead off n s).1 := by
  have reg (r : Reg) : readReg { s with port := bytes } r = readReg s r := by cases r <;> rfl
  simp only [memRead, freeRead, reg]
  split_ifs <;> rfl

/-! ### The numbers the register words hold -/

/-- An append holds its upper part times a power of two, plus its lower part. -/
theorem toNat_append_eq_add {m n : Nat} (x : BitVec m) (y : BitVec n) : (x ++ y).toNat = x.toNat * 2 ^ n + y.toNat := by
  rw [BitVec.toNat_append, ← Nat.shiftLeft_add_eq_or_of_lt y.isLt, Nat.shiftLeft_eq]

theorem toNat_ctrlWord (b : Bool) : (ctrlWord b).toNat = b.toNat := by cases b <;> rfl

theorem toNat_statusWord (st : Status) : (statusWord st).toNat = st.busy.toNat + 2 * st.done.toNat +
    4 * st.errf.toNat + 0x100 * st.err.toNat + 0x10000 * st.lastOpc.toNat := by
  simp only [statusWord, toNat_append_eq_add, BitVec.toNat_ofBool, BitVec.toNat_ofNat]
  omega

theorem toNat_capsWord {lmax : Nat} (h : lmax < 65536) : (capsWord lmax).toNat = 0x01FF0000 + lmax := by
  simp only [capsWord, toNat_append_eq_add, BitVec.toNat_ofNat]
  omega

/-- PARAM holds N above K (10_state.md rule R30). -/
theorem toNat_paramWord (n k : Half) : (n ++ k : BitVec 32).toNat = k.toNat + 0x10000 * n.toNat := by
  rw [toNat_append_eq_add n k]; omega

theorem toNat_zeroExtend_byte (b : Byte) : (b.setWidth 32).toNat = b.toNat := by
  rw [BitVec.toNat_setWidth]; omega

theorem toNat_zeroExtend_half (v : Half) : (v.setWidth 32).toNat = v.toNat := by
  rw [BitVec.toNat_setWidth]; omega

/-! ### The unit's part of a state -/

/-- States with the same unit agree on every field that is the unit's. -/
theorem eq_of_unitPart_eq {α : Type} {s t : State} (f : State → α) (h : unitPart t = unitPart s)
    (hf : ∀ u, f (unitPart u) = f u) : f t = f s := by rw [← hf t, h, hf s]

theorem phase_eq_of_unitPart_eq {s t : State} (h : unitPart t = unitPart s) : t.phase = s.phase :=
  eq_of_unitPart_eq State.phase h fun _ => rfl

theorem status_eq_of_unitPart_eq {s t : State} (h : unitPart t = unitPart s) : t.status = s.status :=
  eq_of_unitPart_eq State.status h fun _ => rfl

theorem errInfo_eq_of_unitPart_eq {s t : State} (h : unitPart t = unitPart s) : t.errInfo = s.errInfo :=
  eq_of_unitPart_eq State.errInfo h fun _ => rfl

theorem irqEn_eq_of_unitPart_eq {s t : State} (h : unitPart t = unitPart s) : t.irqEn = s.irqEn :=
  eq_of_unitPart_eq State.irqEn h fun _ => rfl

/-! ### The error record (60_exceptions.md rule R212) -/

/-- ERR, ERRF, LAST_OPC and ERR_INFO are as they were. -/
def SameError (s t : State) : Prop :=
  t.status.err = s.status.err ∧ t.status.errf = s.status.errf ∧ t.status.lastOpc = s.status.lastOpc ∧
    t.errInfo = s.errInfo

/-- The error record is the unit's, so the outside agents' fields do not matter. -/
theorem SameError.congr {s t u : State} (h : SameError s u) (e : unitPart t = unitPart u) : SameError s t := by
  rwa [SameError, status_eq_of_unitPart_eq e, errInfo_eq_of_unitPart_eq e]

theorem sameError_writeReg (r : Reg) (v : Word) (s : State) :
    SameError s (writeReg r v s) ∨ writeReg r v s = resetUnit s := by
  cases r with
  | ctrl =>
    simp only [writeReg, writeCtrl]
    split
    · exact .inr rfl
    · exact .inl ⟨rfl, rfl, rfl, rfl⟩
  | status =>
    simp only [writeReg]
    split <;> exact .inl ⟨rfl, rfl, rfl, rfl⟩
  | id | cmd | opa | opb | result | count | param | secretLen | errInfo | caps | reserved => exact .inl ⟨rfl, rfl, rfl, rfl⟩

theorem sameError_memWrite (off n : Nat) (v : Word) (s : State) :
    SameError s (memWrite off n v s).2 ∨ (memWrite off n v s).2 = resetUnit s := by
  rcases memWrite_cases off n v s with e | ⟨-, -, -, e⟩ | ⟨-, -, -, e⟩ <;> rw [e]
  · exact .inl ⟨rfl, rfl, rfl, rfl⟩
  · exact sameError_writeReg _ _ _
  · exact .inl ⟨rfl, rfl, rfl, rfl⟩

/-! ### The unit while BUSY (10_state.md rule R42) -/

/-- A host write to a BUSY unit leaves its part of the state as before but for IRQ_EN, or in reset. -/
theorem unitPart_memWrite_busy {s t : State} (hp : s.phase = .busy) {off n : Nat} {v : Word}
    (h : unitPart t = unitPart (memWrite off n v s).2) :
    unitPart t = unitPart { s with irqEn := t.irqEn } ∨ unitPart t = unitPart (resetUnit s) := by
  rcases memWrite_busy (off := off) (n := n) (v := v) hp with e | e
  · rw [irqEn_eq_of_unitPart_eq h, h]
    exact .inl (congrArg unitPart e)
  · rw [h, e]
    exact .inr rfl

/-- A part of the state that is as before is as before but for IRQ_EN. -/
theorem unitPart_keeps_irqEn {s t : State} (h : unitPart t = unitPart s) :
    unitPart t = unitPart { s with irqEn := t.irqEn } := by
  rw [h, irqEn_eq_of_unitPart_eq h]

/-! ### The settled statements -/

/-- Settles O57: a step is one of `step_cases`, and each of those keeps the invariant. -/
theorem everyStepKeepsTheInvariant : Obligations.EveryStepKeepsTheInvariant := by
  intro s t hs h
  have turn : Inv (takeTurn s) := hs.congr (unitPart_takeTurn s)
  rcases step_cases h with hu | ⟨-, i, -, he⟩ | ⟨-, -, rfl⟩ | rfl | ⟨off, n, v, hu⟩
  · exact hs.congr hu
  · exact turn.exec he
  · exact Inv.finish turn.lmaxLegal turn.memCanonical turn.memMapped (.inl rfl)
  · exact turn.resetUnit
  · exact (turn.memWrite off n v).congr hu

/-- Settles O34: the frame of a command, with the operand buffers below SHARE_LEN. -/
theorem onlyZeroizeWritesOperandRegistersAndOperandBuffers :
    Obligations.OnlyZeroizeWritesOperandRegistersAndOperandBuffers := by
  intro i s t h
  obtain ⟨hl, hb, hirq, hcmd, -⟩ := exec_frame h
  refine ⟨hirq, hcmd, hl, hb, fun hi => ?_⟩
  obtain ⟨ha, hb, hk, hn, low⟩ := exec_keeps_operands h hi
  refine ⟨ha, hb, hk, hn, fun k hk => ⟨low _ ?_, low _ ?_, low _ ?_⟩⟩
  · simp only [coefAddr]; omega
  · simp only [pxAddr]; omega
  · simp only [pyAddr]; omega

/-- Settles O35: of the ways a command can end, only a SPLIT that completes touches the port. -/
theorem onlySplitDrawsRandomBytes : Obligations.OnlySplitDrawsRandomBytes := by
  refine ⟨fun i s t h => ?_, fun s off n bytes => memRead_port off n bytes s, fun s b rest h => step_scheduled h⟩
  rcases exec_cases h with ⟨_, _, -, -, rfl⟩ | ⟨-, -, -, rfl⟩ | ⟨-, _, rfl⟩ | ⟨hi, hc, hp, rfl⟩ | ⟨-, -, rfl⟩ | ⟨-, rfl⟩
  · exact .inl rfl
  · exact .inl rfl
  · exact .inl rfl
  · exact .inr ⟨hi, hc, hp, rfl⟩
  · exact .inl rfl
  · exact .inl rfl

/-- Settles O36. -/
theorem aCommandDependsOnlyOnTheUnitAndItsDraws : Obligations.ACommandDependsOnlyOnTheUnitAndItsDraws :=
  fun _ _ _ h sch o base j k e => exec_placedAmong h sch o base j k e

/-- Settles O42: an IDLE read of a register offset gives its register's word, whose number is computed field by field. -/
theorem idleReadsShowTheRegisters : Obligations.IdleReadsShowTheRegisters := by
  intro s hp hl
  have read {off x : Nat} (h : off < 0x100) (h4 : off % 4 = 0) (hx : (readReg s (regAt off)).toNat = x) :
      ∃ w, memRead off 4 s = (.data w, s) ∧ w.toNat = x := ⟨_, memRead_register hp h h4, hx⟩
  refine ⟨read (by decide) rfl rfl, read (by decide) rfl (toNat_ctrlWord _), read (by decide) rfl (toNat_statusWord _),
    ⟨_, memRead_register hp (by decide) rfl, rfl⟩, read (by decide) rfl (toNat_zeroExtend_byte _),
    read (by decide) rfl (toNat_zeroExtend_byte _), read (by decide) rfl (toNat_zeroExtend_byte _),
    read (by decide) rfl (toNat_zeroExtend_byte _), read (by decide) rfl (toNat_paramWord _ _),
    read (by decide) rfl (toNat_zeroExtend_half _), read (by decide) rfl (toNat_zeroExtend_half _),
    read (by decide) rfl (toNat_capsWord hl), fun k h12 h64 => ?_⟩
  rw [memRead_register hp (by omega) (by omega), regAt_reserved (by omega), readReg]

/-- Settles O48: the host's write is the one move that touches a unit that stays BUSY, and the gate lets only CTRL pass. -/
theorem aHostMoveWhileBusyKeepsTheOperands : Obligations.AHostMoveWhileBusyKeepsTheOperands := by
  constructor
  · intro s t rest hp hsch h
    rw [step_scheduled hsch] at h
    obtain ⟨-, hu | ⟨off, n, v, hu⟩⟩ := hostStep_cases h
    · exact .inl ⟨s.irqEn, hu⟩
    · exact (unitPart_memWrite_busy (s := { s with schedule := rest }) hp hu).imp_left fun e => ⟨_, e⟩
  · intro s t hp h hb
    rcases step_cases h with hu | ⟨-, i, -, he⟩ | ⟨-, -, rfl⟩ | rfl | ⟨off, n, v, hu⟩
    · exact unitPart_keeps_irqEn hu
    · rcases exec_held_or_completes he with rfl | ⟨hidle, -⟩
      · rfl
      · simp [hidle] at hb
    · simp at hb
    · simp at hb
    · rcases unitPart_memWrite_busy (s := takeTurn s) hp hu with e | e
      · exact e
      · have hidle : t.phase = .idle := phase_eq_of_unitPart_eq e
        simp [hidle] at hb

/-- Settles O49: a host write keeps the error record or resets the unit, and a command that is not held completes. -/
theorem errChangesOnlyAtCompletionOrReset : Obligations.ErrChangesOnlyAtCompletionOrReset := by
  intro s t h
  rcases step_cases h with hu | ⟨hp, i, -, he⟩ | ⟨hp, -, rfl⟩ | rfl | ⟨off, n, v, hu⟩
  · exact .inl (SameError.congr ⟨rfl, rfl, rfl, rfl⟩ hu)
  · rcases exec_held_or_completes he with rfl | done
    · exact .inl ⟨rfl, rfl, rfl, rfl⟩
    · exact .inr (.inl ⟨hp, done⟩)
  · exact .inr (.inl ⟨hp, rfl, rfl⟩)
  · exact .inr (.inr rfl)
  · rcases sameError_memWrite off n v (takeTurn s) with e | e
    · exact .inl (SameError.congr e hu)
    · exact .inr (.inr (by rw [hu, e]; rfl))

/-- Settles O50. -/
theorem irqIsDoneAndIrqEnable : Obligations.IrqIsDoneAndIrqEnable := by
  refine ⟨fun s => by rw [irq, Bool.and_eq_true], fun i s t hp h ht => ?_, fun s hp => ⟨?_, ?_, fun w => ?_⟩, fun s => rfl⟩
  · have hirq : t.irqEn = s.irqEn := (exec_frame h).2.2.1
    rcases exec_held_or_completes h with rfl | ⟨-, hd⟩
    · simp [hp] at ht
    · rw [irq, hd, Bool.true_and, hirq]
  · rw [memWrite_register hp (by decide) rfl]
    exact Bool.and_true _
  · rw [memWrite_register hp (by decide) rfl]; rfl
  · rw [memWrite_register hp (by decide) rfl]; rfl

/-- Settles O43: an IDLE write at a register offset is that register's write rule. -/
theorem idleRegisterWritesKeepOnlyTheirFields : Obligations.IdleRegisterWritesKeepOnlyTheirFields := by
  intro s v hp
  have write {off : Nat} (h : off < 0x100) (h4 : off % 4 = 0) : memWrite off 4 v s = (.ok, writeReg (regAt off) v s) :=
    memWrite_register hp h h4 v
  refine ⟨write (by decide) rfl, write (by decide) rfl, write (by decide) rfl, write (by decide) rfl,
    write (by decide) rfl, write (by decide) rfl, write (by decide) rfl, write (by decide) rfl, write (by decide) rfl,
    fun k h12 h64 => ?_, fun hv => ?_, fun hv => ?_⟩
  · rw [write (by omega) (by omega), regAt_reserved (by omega), writeReg]
  · rw [write (by decide) rfl]
    exact congrArg (Prod.mk _) (if_pos hv)
  · rw [write (by decide) rfl]
    exact congrArg (Prod.mk _) (if_neg (Bool.eq_false_iff.1 hv))

/-- Settles O54. -/
theorem stateResetHoldsTheResetValues : Obligations.StateResetHoldsTheResetValues :=
  ⟨rfl, rfl, rfl, rfl, rfl, rfl, rfl, rfl, rfl, rfl, rfl, rfl, rfl, readByte_nil, slen_nil, rfl⟩

/-- Settles O56: State.reset is a reset unit with the reference LMAX, which is legal. -/
theorem theResetStateMeetsTheInvariant : Obligations.TheResetStateMeetsTheInvariant where
  lmaxLegal := by decide
  memCanonical := memoryWf_nil
  memMapped := by simp [State.reset]
  phaseIsBusy := by decide
  busyNotDone := fun _ => rfl
  errfIsErr := by decide
  errInTable := ⟨.ok, rfl⟩
  infoNamed := .inl rfl

end Sys2Proof.Machine

/-! ## Proofs of the statements about the host bus (20_memory.md)

First the laws these proofs share: the regions as intervals, which accesses are well-placed, how the bus answers each access,
and the bytes of a bus word. Then the theorems that settle the obligations. -/

namespace Sys2Proof.Machine

/-! ### The regions as intervals (20_memory.md rule R61) -/

/-- The first offset of a region. -/
def regionStart : Region → Nat
  | .regs | .unmapped => 0
  | .coef => 0x1000
  | .pointX => 0x2000
  | .pointY => 0x2100
  | .shareLen => 0x3000
  | .secret => 0x10000
  | .slot j => 0x1000000 + j * 0x10000

/-- How many mapped bytes a region has. -/
def regionSize (lmax : Nat) : Region → Nat
  | .regs | .coef | .pointX | .pointY => 0x100
  | .shareLen => 0x400
  | .secret => lmax
  | .slot j => if j < 255 then lmax + 1 else 0
  | .unmapped => 0

/-- A byte lies in the interval of the region that holds it. -/
theorem regionOf_bounds {lmax off : Nat} (h : regionOf lmax off ≠ .unmapped) :
    regionStart (regionOf lmax off) ≤ off ∧
      off < regionStart (regionOf lmax off) + regionSize lmax (regionOf lmax off) := by
  unfold regionOf at h ⊢
  split_ifs at h ⊢ with h1 h2 h3 h4 h5 h6 h7 <;> simp only [regionStart, regionSize]
  any_goals omega
  · rw [if_pos h7.2.1]; omega
  · exact absurd rfl h

/-- A byte of a region's interval is held by that region: the intervals are disjoint. -/
theorem regionOf_eq_of_bounds {lmax off : Nat} {r : Region} (hl : lmax ≤ Config.lmaxGreatest) (hlo : regionStart r ≤ off)
    (hhi : off < regionStart r + regionSize lmax r) : regionOf lmax off = r := by
  obtain ⟨k, rfl⟩ := Nat.exists_eq_add_of_le hlo
  have hk : k < regionSize lmax r := by omega
  cases r with
  | regs => exact regionOf_regs (by simpa [regionStart, regionSize] using hk)
  | coef => exact regionOf_coef hk
  | pointX => exact regionOf_px hk
  | pointY => exact regionOf_py hk
  | shareLen =>
    have := regionOf_slen (lmax := lmax) (j := k / 4) (k := k % 4) (by simp only [regionSize] at hk; omega) (by omega)
    rwa [slenAddr, show 0x3000 + 4 * (k / 4) + k % 4 = 0x3000 + k by omega] at this
  | secret => exact regionOf_secret hk
  | slot j =>
    by_cases hj : j < 255
    · exact regionOf_slot hl hj (by simp only [regionSize, if_pos hj] at hk; omega)
    · simp [regionSize, hj] at hk
  | unmapped => simp [regionSize] at hk

/-! ### Well-placed accesses (20_memory.md rules R62 and R63) -/

/-- An access in REGS is a 4-byte access (R63). -/
theorem wellPlaced_regs_width {lmax off n : Nat} (h : wellPlaced lmax off n = true) (hr : regionOf lmax off = .regs) :
    n = 4 := by
  simpa [hr] using (Bool.and_eq_true_iff.1 h).2

/-- An access is well-placed when its width and alignment are and one region's interval holds it whole. -/
theorem wellPlaced_iff_region {lmax off n : Nat} (hl : lmax ≤ Config.lmaxGreatest) :
    wellPlaced lmax off n = true ↔ (n = 1 ∨ n = 2 ∨ n = 4) ∧ off % n = 0 ∧
      ∃ r : Region, (r = .regs → n = 4) ∧ regionStart r ≤ off ∧ off + n ≤ regionStart r + regionSize lmax r := by
  constructor
  · intro h
    have hn := wellPlaced_width h
    obtain ⟨-, hmapped⟩ := wellPlaced_region h (k := 0) (by omega)
    obtain ⟨hlast, -⟩ := wellPlaced_region h (k := n - 1) (by omega)
    have last := (regionOf_bounds (hlast ▸ hmapped)).2
    have halign : off % n = 0 := by
      simp only [wellPlaced, Bool.and_eq_true, beq_iff_eq] at h
      exact h.1.1.1.2
    rw [hlast] at last
    exact ⟨hn, halign, _, wellPlaced_regs_width h, (regionOf_bounds hmapped).1, by omega⟩
  · rintro ⟨hn, halign, r, hregs, hlo, hhi⟩
    have inside (k : Nat) (hk : k < n) : regionOf lmax (off + k) = r :=
      regionOf_eq_of_bounds hl (by omega) (by omega)
    have first : regionOf lmax off = r := inside 0 (by omega)
    have mapped : r ≠ .unmapped := by
      rintro rfl
      simp only [regionStart, regionSize] at hhi
      omega
    simp only [wellPlaced, Bool.and_eq_true, Bool.or_eq_true, List.all_eq_true, List.mem_range, beq_iff_eq, bne_iff_ne,
      first]
    exact ⟨⟨⟨⟨by omega, halign⟩, mapped⟩, inside⟩, or_iff_not_imp_left.2 fun h => hregs (not_not.1 h)⟩

/-! ### The registers the gate and the hazard single out -/

theorem regAt_eq_ctrl_iff {off : Nat} : regAt off = .ctrl ↔ off = 0x04 := by
  unfold regAt
  split <;> simp_all

/-- The registers whose reads are exact while a command runs, by offset (20_memory.md rule R72). -/
theorem exactWhileBusy_regAt_iff {off : Nat} :
    exactWhileBusy (regAt off) = true ↔ off ∈ [0x00, 0x04, 0x08, 0x0C, 0x2C] := by
  unfold regAt
  split <;> simp_all [exactWhileBusy]

/-! ### How the bus answers a read (20_memory.md rules R64 and R72) -/

theorem memRead_misplaced {s : State} {off n : Nat} (h : wellPlaced s.lmax off n = false) :
    memRead off n s = (.busError, s) := by
  simp [memRead, h]

/-- A buffer read while IDLE. -/
theorem memRead_buffer {s : State} {off n : Nat} (hp : s.phase = .idle) (hw : wellPlaced s.lmax off n = true)
    (hr : regionOf s.lmax off ≠ .regs) : memRead off n s = (.data (littleEndian (loadBytes s.mem off n)), s) := by
  simp [memRead, hw, hr, hp]

/-- A read, in any phase, of a register the hazard leaves exact. -/
theorem memRead_exact {s : State} {off : Nat} (h : off ∈ [0x00, 0x04, 0x08, 0x0C, 0x2C]) :
    memRead off 4 s = (.data (readReg s (regAt off)), s) := by
  have hx := exactWhileBusy_regAt_iff.2 h
  have hplace : off < 0x100 ∧ off % 4 = 0 := by
    revert off
    decide
  simp [memRead, wellPlaced_regs hplace.1 hplace.2, regionOf_regs hplace.1, hx]

/-- A read while BUSY whose value is open. -/
theorem memRead_open {s : State} {off n : Nat} (hp : s.phase = .busy) (hw : wellPlaced s.lmax off n = true)
    (h : off ∉ [0x00, 0x04, 0x08, 0x0C, 0x2C]) : memRead off n s = freeRead n s := by
  have hx : exactWhileBusy (regAt off) = false := Bool.eq_false_iff.2 (mt exactWhileBusy_regAt_iff.1 h)
  by_cases hr : regionOf s.lmax off = .regs <;> simp [memRead, hw, hp, hr, hx]

/-- Every read is a bus error, an exact read that changes nothing, or an open read while BUSY. -/
theorem memRead_cases (off n : Nat) (s : State) :
    (wellPlaced s.lmax off n = false ∧ memRead off n s = (.busError, s)) ∨
    (wellPlaced s.lmax off n = true ∧ ∃ w, memRead off n s = (.data w, s)) ∨
    (wellPlaced s.lmax off n = true ∧ s.phase = .busy ∧ memRead off n s = freeRead n s) := by
  cases hw : wellPlaced s.lmax off n with
  | false => exact .inl ⟨rfl, memRead_misplaced hw⟩
  | true =>
    refine .inr ?_
    by_cases hr : regionOf s.lmax off = .regs
    · by_cases hx : s.phase = .busy ∧ exactWhileBusy (regAt off) = false
      · exact .inr ⟨rfl, hx.1, by simp [memRead, hw, hr, hx]⟩
      · exact .inl ⟨rfl, _, by rw [memRead, if_pos hw, if_pos hr, if_neg hx]⟩
    · cases hp : s.phase with
      | idle => exact .inl ⟨rfl, _, memRead_buffer hp hw hr⟩
      | busy => exact .inr ⟨rfl, rfl, by simp [memRead, hw, hr, hp]⟩

/-! ### How the bus answers a write (20_memory.md rules R65 and R66) -/

/-- For a well-placed write the gate asks for the 4-byte access to CTRL. -/
theorem writeGated_iff {s : State} {off n : Nat} (hw : wellPlaced s.lmax off n = true) :
    writeGated off s = true ↔ s.phase = .busy ∧ ¬(off = 0x04 ∧ n = 4) := by
  have ctrl : (regionOf s.lmax off = .regs ∧ regAt off = .ctrl) ↔ off = 0x04 ∧ n = 4 := by
    rw [regAt_eq_ctrl_iff]
    constructor
    · rintro ⟨hr, rfl⟩
      exact ⟨rfl, wellPlaced_regs_width hw hr⟩
    · rintro ⟨rfl, -⟩
      exact ⟨regionOf_regs (by decide), rfl⟩
  rw [← ctrl]
  simp only [writeGated, Bool.and_eq_true, beq_iff_eq, Bool.not_eq_true', Bool.eq_false_iff, ne_eq]

/-- A write is a bus error when it is misplaced or gated. -/
theorem memWrite_busError_iff (off n : Nat) (v : Word) (s : State) :
    (memWrite off n v s).1 = .busError ↔ wellPlaced s.lmax off n = false ∨ writeGated off s = true := by
  rw [memWrite]
  split_ifs with hw hg hr
  · simp [hg]
  · simp [hw, hg]
  · simp [hw, hg]
  · simp [hw]

/-- A buffer write while IDLE. -/
theorem memWrite_buffer {s : State} {off n : Nat} (hp : s.phase = .idle) (hw : wellPlaced s.lmax off n = true)
    (hr : regionOf s.lmax off ≠ .regs) (v : Word) :
    memWrite off n v s = (.ok, { s with mem := storeBytes s.mem off (bytesOf v n) }) := by
  simp [memWrite, writeGated, hw, hr, hp]

/-! ### The bytes of a bus word (20_memory.md rules R64, R65, R67 and R73) -/

theorem slenUpper_iff {off : Nat} : slenUpper off = true ↔ 0x3000 ≤ off ∧ off < 0x3400 ∧ 2 ≤ off % 4 := by
  simp [slenUpper, and_assoc]

theorem getD_map_range {α : Type} (f : Nat → α) (n k : Nat) (d : α) :
    ((List.range n).map f).getD k d = if k < n then f k else d := by
  by_cases h : k < n <;> simp [List.getD, h]

theorem getD_bytesOf {v : Word} {n k : Nat} (h : k < n) (d : Byte) : (bytesOf v n).getD k d = byteOf v k := by
  rw [bytesOf, getD_map_range, if_pos h]

theorem byteOf_littleEndian_cons_zero (b : Byte) (bs : List Byte) : byteOf (littleEndian (b :: bs)) 0 = b := by
  apply BitVec.eq_of_getLsbD_eq
  intro i hi
  have : i < 32 := by omega
  simp [littleEndian, byteOf, hi, this]

theorem byteOf_littleEndian_cons_succ (b : Byte) (bs : List Byte) {k : Nat} (hk : k + 1 < 4) :
    byteOf (littleEndian (b :: bs)) (k + 1) = byteOf (littleEndian bs) k := by
  apply BitVec.eq_of_getLsbD_eq
  intro i hi
  have shifted : 8 * (k + 1) + i = 8 * k + i + 8 := by omega
  have inWord : 8 * k + i + 8 < 32 := by omega
  simp [littleEndian, byteOf, hi, shifted, inWord, BitVec.getLsbD_eq_getElem (show 8 * k + i < 32 by omega)]

/-- The lowest address is in bits [7:0] (R67). -/
theorem byteOf_littleEndian (bs : List Byte) {k : Nat} (hk : k < 4) : byteOf (littleEndian bs) k = bs.getD k 0x00#8 := by
  induction bs generalizing k with
  | nil => simp [littleEndian, byteOf]
  | cons b bs ih =>
    cases k with
    | zero => exact byteOf_littleEndian_cons_zero b bs
    | succ k => rw [byteOf_littleEndian_cons_succ b bs hk, ih (by omega), List.getD_cons_succ]

/-- The bytes of the word a buffer read gives. -/
theorem byteOf_load (m : Memory) (off n : Nat) {k : Nat} (hk : k < 4) :
    byteOf (littleEndian (loadBytes m off n)) k =
      if k < n ∧ ¬slenUpper (off + k) = true then readByte m (off + k) else 0x00#8 := by
  rw [byteOf_littleEndian _ hk, loadBytes, getD_map_range, ite_and, loadByte]
  congr 1
  exact (ite_not _ _ _).symm

/-! ### The settled statements -/

/-- Settles O37: region by region, the interval that holds the access is the map's. -/
theorem theWindowMapIsTheSpecsMap : Obligations.TheWindowMapIsTheSpecsMap := by
  intro lmax off n hl
  rw [wellPlaced_iff_region hl]
  refine and_congr_right fun hn => and_congr_right fun _ => ⟨?_, ?_⟩
  · rintro ⟨r, hregs, hlo, hhi⟩
    cases r <;> simp only [regionStart, regionSize] at hlo hhi
    case regs => exact .inl ⟨hregs rfl, by omega⟩
    case slot j =>
      split at hhi
      · rename_i hj
        exact .inr (.inr (.inr (.inr (.inr (.inr ⟨j, hj, hlo, by omega⟩)))))
      · omega
    all_goals omega
  · rintro (⟨h4, h⟩ | h | h | h | h | h | ⟨j, hj, h⟩)
    · exact ⟨.regs, fun _ => h4, Nat.zero_le _, by simpa [regionStart, regionSize] using h⟩
    · exact ⟨.coef, nofun, h⟩
    · exact ⟨.pointX, nofun, h⟩
    · exact ⟨.pointY, nofun, h⟩
    · exact ⟨.shareLen, nofun, h⟩
    · exact ⟨.secret, nofun, h⟩
    · exact ⟨.slot j, nofun, by simpa [regionStart, regionSize, hj, Nat.add_assoc] using h⟩

/-- Settles O44: the law of stored bytes, at a place of the access and outside it. -/
theorem aBufferWriteStoresItsBytesAndNoOthers : Obligations.ABufferWriteStoresItsBytesAndNoOthers := by
  intro s off n v hp hw hr
  refine ⟨_, memWrite_buffer hp hw hr v, fun k hk hu => ?_, fun a ha => ?_⟩
  · rw [← slenUpper_iff, Bool.not_eq_true] at hu
    rw [readByte_storeBytes, if_pos ⟨by omega, by rw [length_bytesOf]; omega, hu⟩, Nat.add_sub_cancel_left, getD_bytesOf hk,
      byteOf]
  · rw [← slenUpper_iff] at ha
    rw [readByte_storeBytes, length_bytesOf, if_neg]
    rintro ⟨hlo, hhi, hu⟩
    rcases ha with ha | ha | ha
    · omega
    · omega
    · simp [hu] at ha

/-- Settles O45: byte k of the word is the k-th loaded byte, and there is none from byte n on. -/
theorem aBufferReadIsLittleEndian : Obligations.ABufferReadIsLittleEndian := by
  intro s off n hp hw hr
  refine ⟨_, memRead_buffer hp hw hr, fun k hk => ?_⟩
  simp only [← slenUpper_iff]
  exact byteOf_load s.mem off n hk

/-- Settles O38: only a misplaced read and a misplaced or gated write answer with a bus error, and both return the state. -/
theorem aBusErrorChangesNothing : Obligations.ABusErrorChangesNothing := by
  intro s off n v
  refine ⟨?_, ?_, fun h => ?_, fun h => ?_⟩
  · rcases memRead_cases off n s with ⟨hw, e⟩ | ⟨hw, w, e⟩ | ⟨hw, -, e⟩
    · simp [hw, e]
    · simp [hw, e]
    · simp [hw, e, freeRead]
  · rw [memWrite_busError_iff]
    cases hw : wellPlaced s.lmax off n with
    | false => simp
    | true => rw [writeGated_iff hw]
  · rcases memRead_cases off n s with ⟨-, e⟩ | ⟨-, w, e⟩ | ⟨-, -, e⟩
    · rw [e]
    · rw [e]
    · simp [e, freeRead] at h
  · rcases memWrite_cases off n v s with e | ⟨-, -, -, e⟩ | ⟨-, -, -, e⟩
    · rw [e]
    · simp [e] at h
    · simp [e] at h

/-- Settles O40: the one read that moves the free-value counter is made while BUSY. -/
theorem readsHaveNoSideEffects : Obligations.ReadsHaveNoSideEffects := by
  intro s off n
  rcases memRead_cases off n s with ⟨-, e⟩ | ⟨-, w, e⟩ | ⟨-, hp, e⟩ <;> rw [e]
  · exact ⟨rfl, fun _ => rfl⟩
  · exact ⟨rfl, fun _ => rfl⟩
  · exact ⟨rfl, fun hi => by simp [hp] at hi⟩

/-- Settles O41: the five offsets are those of the registers whose reads are exact while a command runs. -/
theorem busyReadsOfTheFiveRegistersAreExact : Obligations.BusyReadsOfTheFiveRegistersAreExact := by
  intro s hp
  exact ⟨memRead_exact (by decide), memRead_exact (by decide), memRead_exact (by decide), memRead_exact (by decide),
    memRead_exact (by decide), fun off n hw h => memRead_open hp hw h⟩

end Sys2Proof.Machine

/-! ## Proofs of the statements about commands, their encoding and the host program (30_encoding.md)

First the laws these proofs share: the decoder, the engine's step and the three orders, the lines of the host program, runs,
and the WAIT loop of a host that moves alone. Then the theorems that settle the obligations. -/

namespace Sys2Proof.Machine

/-! ### The decoder (30_encoding.md rules R90 to R93 and R100) -/

/-- Every command's word is well-formed and decodes to the command. -/
theorem commandWord_encode (i : Instr) : Laws.CommandWord.Statement i := by
  cases i with
  | add => exact Laws.CommandWord.add
  | sub => exact Laws.CommandWord.sub
  | mul => exact Laws.CommandWord.mul
  | div => exact Laws.CommandWord.div
  | inv => exact Laws.CommandWord.inv
  | eval => exact Laws.CommandWord.eval
  | interp0 => exact Laws.CommandWord.interp0
  | split => exact Laws.CommandWord.split
  | combine => exact Laws.CommandWord.combine
  | zeroize => exact Laws.CommandWord.zeroize

theorem decode_encode (i : Instr) : decode (encode i) = .command i := (commandWord_encode i).2

/-- A word is RSVD above OPC (R90). -/
theorem rsvdOf_append_opcOf (w : Word) : (rsvdOf w ++ opcOf w : BitVec 32) = w := by
  rw [rsvdOf, opcOf, BitVec.extractLsb'_append_extractLsb'_eq_extractLsb' (by decide : 8 = 0 + 8)]
  exact BitVec.extractLsb'_eq_self

theorem toNat_word (w : Word) : w.toNat = (rsvdOf w).toNat * 0x100 + (opcOf w).toNat := by
  conv_lhs => rw [← rsvdOf_append_opcOf w]
  exact toNat_append_eq_add _ _

theorem opcode_of_decodeOpc {c : Byte} {i : Instr} (h : decodeOpc c = some i) : c = opcode i := by
  unfold decodeOpc at h
  split at h <;> cases h <;> rfl

/-- The map gives no command outside 0x01 to 0x0A (R92, R93). -/
theorem decodeOpc_eq_none_iff {c : Byte} : decodeOpc c = none ↔ ¬(1 ≤ c.toNat ∧ c.toNat ≤ 10) := by
  revert c
  decide

theorem decode_of_rsvd_of_opc {w : Word} {i : Instr} (hr : rsvdOf w = 0#24) (ho : decodeOpc (opcOf w) = some i) :
    decode w = .command i := by
  simp [decode, hr, ho]

theorem rsvd_opc_of_decode {w : Word} {i : Instr} (h : decode w = .command i) :
    rsvdOf w = 0#24 ∧ decodeOpc (opcOf w) = some i := by
  rw [decode] at h
  split at h
  · rename_i hr
    split at h
    · rename_i ho
      cases h
      exact ⟨hr, ho⟩
    · cases h
  · cases h

/-- A command's word is the only one that decodes to it. -/
theorem decode_eq_command_iff {w : Word} {i : Instr} : decode w = .command i ↔ w = encode i := by
  constructor
  · intro h
    obtain ⟨hr, ho⟩ := rsvd_opc_of_decode h
    rw [← rsvdOf_append_opcOf w, hr, opcode_of_decodeOpc ho, encode]
  · rintro rfl
    exact decode_encode i

/-- The words that select a command are 1 to 10. -/
theorem exists_decode_eq_command_iff {w : Word} : (∃ i, decode w = .command i) ↔ 1 ≤ w.toNat ∧ w.toNat ≤ 10 := by
  have hw := toNat_word w
  constructor
  · rintro ⟨i, h⟩
    obtain ⟨hr, ho⟩ := rsvd_opc_of_decode h
    have hopc : 1 ≤ (opcOf w).toNat ∧ (opcOf w).toNat ≤ 10 := by
      by_contra hn
      simp [decodeOpc_eq_none_iff.2 hn] at ho
    rw [hr, BitVec.toNat_ofNat] at hw
    omega
  · intro h
    have hr : rsvdOf w = 0#24 := BitVec.eq_of_toNat_eq (by rw [BitVec.toNat_ofNat]; omega)
    have hopc : decodeOpc (opcOf w) ≠ none := fun hn => decodeOpc_eq_none_iff.1 hn (by omega)
    obtain ⟨i, ho⟩ := Option.ne_none_iff_exists'.1 hopc
    exact ⟨i, decode_of_rsvd_of_opc hr ho⟩

/-- A word is illegal exactly when it selects no command. -/
theorem exists_decode_eq_illegal_iff {w : Word} :
    (∃ why, decode w = .illegal why) ↔ ¬(1 ≤ w.toNat ∧ w.toNat ≤ 10) := by
  rw [← exists_decode_eq_command_iff]
  cases decode w with
  | command i => simp
  | illegal why => simp

/-- The two ways of R93 for a word to be illegal. -/
theorem decode_illegal_of_fields {w : Word} (h : rsvdOf w ≠ 0#24 ∨ opcOf w = 0#8 ∨ 0x0B ≤ (opcOf w).toNat) :
    ∃ why, decode w = .illegal why := by
  rw [exists_decode_eq_illegal_iff, toNat_word]
  rcases h with h | h | h
  · have : (rsvdOf w).toNat ≠ 0 := fun h0 => h (BitVec.eq_of_toNat_eq h0)
    omega
  · rw [h, BitVec.toNat_ofNat]
    omega
  · omega

/-! ### The engine's step (30_encoding.md rules R97 to R99) -/

theorem engineStep_idle {s : State} (hp : s.phase = .idle) : engineStep s = .next s := by rw [engineStep, hp]

theorem engineStep_busy {s : State} (hp : s.phase = .busy) : engineStep s = completionStep s := by rw [engineStep, hp]

theorem step_scheduled_engine {s : State} {rest : List Move} (hsch : s.schedule = .engine :: rest)
    (hp : s.phase = .busy) : step s = completionStep { s with schedule := rest } := by
  rw [step_scheduled hsch]
  exact engineStep_busy hp

theorem completionStep_command {s : State} {i : Instr} (hd : decode s.cmd = .command i) :
    completionStep s = exec i s := by
  rw [completionStep, hd]

theorem completionStep_illegal {s : State} (hd : ∃ why, decode s.cmd = .illegal why) :
    completionStep s = .next (completeIllegal s) := by
  obtain ⟨why, hd⟩ := hd
  rw [completionStep, hd]

/-- The completion step never stops the machine. -/
theorem completionStep_next (s : State) : ∃ t, completionStep s = .next t := by
  cases hd : decode s.cmd with
  | command i => rw [completionStep_command hd]; exact exec_next i s
  | illegal why => exact ⟨_, completionStep_illegal ⟨why, hd⟩⟩

/-- What R98 says of the state `t` in which the completion step leaves the unit of `s`. -/
structure Completed (s t : State) : Prop where
  phase : t.phase = .idle
  busy : t.status.busy = false
  done : t.status.done = true
  lastOpc : t.status.lastOpc = s.cmd.extractLsb' 0 8
  errf : t.status.errf = true ↔ t.status.err ≠ 0x00#8
  cmd : t.cmd = s.cmd
  irqEn : t.irqEn = s.irqEn

/-- Finish, after writes that leave CMD and CTRL alone, is a completion. -/
theorem completed_finish {s u : State} (hcmd : u.cmd = s.cmd) (hirq : u.irqEn = s.irqEn) (code : ErrorCode) (info : Half) :
    Completed s (finish code info u) where
  phase := rfl
  busy := rfl
  done := rfl
  lastOpc := congrArg opcOf hcmd
  errf := bne_iff_ne
  cmd := hcmd
  irqEn := hirq

/-- A completion step completes unless it is that of a held SPLIT. -/
theorem completionStep_completes {s : State} (hh : ¬engineHeld s = true) :
    ∃ t, completionStep s = .next t ∧ Completed s t ∧ t.schedule = s.schedule := by
  cases hd : decode s.cmd with
  | command i =>
    obtain ⟨t, ht⟩ := exec_next i s
    obtain ⟨-, -, hirq, -, -, hsch, -⟩ := exec_frame ht
    obtain ⟨code, info, u, rfl, hu⟩ := exec_finish ht fun ⟨hi, hc⟩ => hh (engineHeld_iff.2 ⟨hi ▸ hd, hc⟩)
    exact ⟨_, (completionStep_command hd).trans ht, completed_finish hu hirq code info, hsch⟩
  | illegal why => exact ⟨_, completionStep_illegal ⟨why, hd⟩, completed_finish rfl rfl _ _, rfl⟩

/-! ### The step with nothing scheduled, under each order (70_reset_and_hazards.md rule R261) -/

theorem step_engineFirst {s : State} (hsch : s.schedule = []) (ho : s.order = .engineFirst) (hp : s.phase = .busy)
    (hh : ¬engineHeld s = true) : step s = completionStep s := by
  have ready : engineReady s = true := by simp [engineReady, hp, hh]
  have hm : defaultMove s = .engine := by simp [defaultMove, ho, ready]
  rw [step, mover_unscheduled hsch, takeTurn_unscheduled hsch (by simp [ho]), hm]
  exact engineStep_busy hp

theorem step_hostOnly {s : State} (hsch : s.schedule = []) (ho : s.order = .hostOnly) : step s = hostStep s := by
  have hm : defaultMove s = .host := by rw [defaultMove, ho]
  rw [step, mover_unscheduled hsch, takeTurn_unscheduled hsch (by simp [ho]), hm, moveStep]

theorem step_free {s : State} (hsch : s.schedule = []) (ho : s.order = .free) :
    step s = moveStep (Config.freeMove s.freeMoves) { s with freeMoves := s.freeMoves + 1 } := by
  have hm : defaultMove s = Config.freeMove s.freeMoves := by rw [defaultMove, ho]
  rw [step, mover_unscheduled hsch, takeTurn_free hsch ho, hm]

/-! ### The host's variables and labels (30_encoding.md rule R101) -/

theorem getVar_setVar (v : HostVars) (d h : HostVar) (x : Word) :
    getVar (setVar d x v) h = if h = d then x else getVar v h := by
  cases d <;> cases h <;> rfl

theorem mem_labels {p : List HostOp} {l : Nat} : l ∈ WellFormed.labels p ↔ HostOp.label l ∈ p := by
  induction p with
  | nil => simp [WellFormed.labels]
  | cons op p ih => cases op <;> simp [WellFormed.labels, ih]

theorem labelLine_eq_none_iff {p : List HostOp} {l : Nat} : labelLine p l = none ↔ l ∉ WellFormed.labels p := by
  rw [labelLine, List.findIdx?_eq_none_iff, mem_labels]
  constructor
  · intro h hm
    simpa using h _ hm
  · rintro h op hop
    rw [beq_eq_false_iff_ne]
    rintro rfl
    exact h hop

theorem hostJump_of_labelLine {s : State} {l k : Nat} (h : labelLine s.host.program l = some k) :
    hostJump l s = .next (atLine k s) := by
  rw [hostJump, h]

theorem hostJump_undefined {s : State} {l : Nat} (h : l ∉ WellFormed.labels s.host.program) :
    hostJump l s = .fault .undefinedLabel := by
  rw [hostJump, labelLine_eq_none_iff.2 h]

theorem hostJump_defined {s : State} {l : Nat} (h : l ∈ WellFormed.labels s.host.program) :
    ∃ t, hostJump l s = .next t := by
  obtain ⟨k, hk⟩ := Option.ne_none_iff_exists'.1 fun hn => labelLine_eq_none_iff.1 hn h
  exact ⟨_, hostJump_of_labelLine hk⟩

/-! ### The host's step -/

theorem hostStep_line {s : State} {op : HostOp} (ho : s.host.outcome = .running)
    (hl : s.host.program[s.host.line]? = some op) : hostStep s = hostLine op s := by
  rw [hostStep, ho]
  simp only [hl]

theorem hostStep_pastEnd {s : State} (ho : s.host.outcome = .running) (hl : s.host.program[s.host.line]? = none) :
    hostStep s = .next s := by
  rw [hostStep, ho]
  simp only [hl]

theorem hostStep_stopped {s : State} (ho : s.host.outcome = .halted ∨ s.host.outcome = .buserr) :
    hostStep s = .next s := by
  rcases ho with ho | ho <;> rw [hostStep, ho]

/-- A line stops the machine only by a branch to a label the program lacks. -/
theorem hostLine_next {op : HostOp} {s : State}
    (h : ∀ l, WellFormed.target op = some l → l ∈ WellFormed.labels s.host.program) : ∃ t, hostLine op s = .next t := by
  cases op with
  | write | read | andi | addi | shri | halt | label => exact ⟨_, rfl⟩
  | jump l => exact hostJump_defined (h l rfl)
  | beqi d imm l =>
    simp only [hostLine]
    split
    · exact hostJump_defined (h l rfl)
    · exact ⟨_, rfl⟩
  | bnei d imm l =>
    simp only [hostLine]
    split
    · exact ⟨_, rfl⟩
    · exact hostJump_defined (h l rfl)

theorem target_mem_labels {p : List HostOp} (hp : WellFormed.hostProgram p = true) {op : HostOp} (hop : op ∈ p) {l : Nat}
    (hl : WellFormed.target op = some l) : l ∈ WellFormed.labels p := by
  simp only [WellFormed.hostProgram, Bool.and_eq_true, WellFormed.targetsDefined, List.all_eq_true] at hp
  obtain ⟨⟨-, hdefined⟩, -⟩ := hp
  simpa [hl] using hdefined op hop

theorem hostStep_next {s : State} (hp : WellFormed.hostProgram s.host.program = true) : ∃ t, hostStep s = .next t := by
  cases ho : s.host.outcome with
  | running =>
    cases hl : s.host.program[s.host.line]? with
    | some op =>
      rw [hostStep_line ho hl]
      exact hostLine_next fun l => target_mem_labels hp (List.mem_of_getElem? hl)
    | none => exact ⟨s, hostStep_pastEnd ho hl⟩
  | halted => exact ⟨s, hostStep_stopped (.inl ho)⟩
  | buserr => exact ⟨s, hostStep_stopped (.inr ho)⟩

/-- With a well-formed host program every step has a next state. -/
theorem step_next {s : State} (hp : WellFormed.hostProgram s.host.program = true) : ∃ t, step s = .next t := by
  rw [step]
  cases mover s with
  | host => exact hostStep_next (s := takeTurn s) hp
  | engine =>
    cases hph : (takeTurn s).phase with
    | idle => exact ⟨_, engineStep_idle hph⟩
    | busy => simp only [moveStep, engineStep_busy hph, completionStep_next]
  | rst => exact ⟨_, rfl⟩
  | rng b => exact ⟨_, rfl⟩

/-! ### The host's transactions (30_encoding.md rule R101) -/

@[simp] theorem nextLine_host (s : State) : (nextLine s).host = { s.host with line := s.host.line + 1 } := rfl

@[simp] theorem hostSet_host (d : HostVar) (x : Word) (s : State) :
    (hostSet d x s).host = { s.host with vars := setVar d x s.host.vars, line := s.host.line + 1 } := rfl

@[simp] theorem memRead_host (off n : Nat) (s : State) : (memRead off n s).2.host = s.host := by
  rcases memRead_state off n s with e | e <;> rw [e]

@[simp] theorem memWrite_host (off n : Nat) (v : Word) (s : State) : (memWrite off n v s).2.host = s.host :=
  (memWrite_frame off n v s).1

theorem hostRead_data {n : Nat} {off x : Word} {s : State} (h : (memRead off.toNat n s).1 = .data x) (d : HostVar) :
    hostRead n d off s = hostSet d x (noteTxn (.read n off) (.data x) (memRead off.toNat n s).2) := by
  simp only [hostRead, windowOffset_busAddress, h]

theorem hostRead_busError {n : Nat} {off : Word} {s : State} (h : (memRead off.toNat n s).1 = .busError) (d : HostVar) :
    hostRead n d off s = stopBuserr (noteTxn (.read n off) .busError (memRead off.toNat n s).2) := by
  simp only [hostRead, windowOffset_busAddress, h]

theorem hostWrite_ok {n : Nat} {off v : Word} {s : State} (h : (memWrite off.toNat n v s).1 = .ok) :
    hostWrite n off v s = nextLine (noteTxn (.write n off v) .ok (memWrite off.toNat n v s).2) := by
  simp only [hostWrite, windowOffset_busAddress, h]

theorem hostWrite_busError {n : Nat} {off v : Word} {s : State} (h : (memWrite off.toNat n v s).1 = .busError) :
    hostWrite n off v s = stopBuserr (noteTxn (.write n off v) .busError (memWrite off.toNat n v s).2) := by
  simp only [hostWrite, windowOffset_busAddress, h]

theorem hostWrite_vars (n : Nat) (off v : Word) (s : State) : (hostWrite n off v s).host.vars = s.host.vars := by
  have kept : (memWrite off.toNat n v s).2.host.vars = s.host.vars := by rw [memWrite_host]
  simp only [hostWrite, windowOffset_busAddress]
  split <;> exact kept

/-- While BUSY the gate refuses a command word (30_encoding.md rule R96). -/
theorem memWrite_cmd_busy {s : State} (hp : s.phase = .busy) (w : Word) : memWrite 0x0C 4 w s = (.busError, s) := by
  have placed : wellPlaced s.lmax 0x0C 4 = true := wellPlaced_regs (by decide) rfl
  have gated : writeGated 0x0C s = true := (writeGated_iff placed).2 ⟨hp, by decide⟩
  rw [memWrite, if_pos placed, if_pos gated]

/-! ### Runs -/

theorem run_succ_of_step {M : Host.Core} {s u : M.State} (h : M.step s = .next u) (n : Nat) :
    M.run (n + 1) s = M.run n u := by
  rw [Host.Core.run, h]

theorem step_of_run_succ {M : Host.Core} {s t : M.State} {n : Nat} (h : M.run (n + 1) s = .next t) :
    ∃ u, M.step s = .next u ∧ M.run n u = .next t := by
  rw [Host.Core.run] at h
  split at h
  · rename_i u hu
    exact ⟨u, hu, h⟩
  · cases h
  · cases h

/-- What every step keeps holds after every run. -/
theorem run_keeps {P : State → Prop} (keep : ∀ s t, P s → step s = .next t → P t) (n : Nat) {s t : State} (hs : P s)
    (h : Host.Core.run Sys2Proof.core n s = .next t) : P t := by
  induction n generalizing s with
  | zero => cases Host.Outcome.next.inj h; exact hs
  | succ n ih =>
    obtain ⟨u, hu, hrun⟩ := step_of_run_succ h
    exact ih (keep s u hs hu) hrun

/-- Where each step has a next state and keeps the claim, so has and does every run. -/
theorem run_next_keeps {P : State → Prop} (progress : ∀ s, P s → ∃ t, step s = .next t ∧ P t) (n : Nat) {s : State}
    (hs : P s) : ∃ t, Host.Core.run Sys2Proof.core n s = .next t ∧ P t := by
  induction n generalizing s with
  | zero => exact ⟨s, rfl, hs⟩
  | succ n ih =>
    obtain ⟨u, hu, hPu⟩ := progress s hs
    obtain ⟨t, ht, hPt⟩ := ih hPu
    exact ⟨t, (run_succ_of_step hu n).trans ht, hPt⟩

/-! ### The host alone never completes a command -/

theorem writeReg_notDone {s : State} (hd : s.status.done = false) (r : Reg) (v : Word) :
    (writeReg r v s).status.done = false := by
  cases r with
  | ctrl =>
    simp only [writeReg, writeCtrl]
    split
    · rfl
    · exact hd
  | status =>
    simp only [writeReg]
    split
    · rfl
    · exact hd
  | cmd => rfl
  | id | opa | opb | result | count | param | secretLen | errInfo | caps | reserved => exact hd

theorem memWrite_notDone {s : State} (hd : s.status.done = false) (off n : Nat) (v : Word) :
    (memWrite off n v s).2.status.done = false := by
  rcases memWrite_cases off n v s with e | ⟨-, -, -, e⟩ | ⟨-, -, -, e⟩ <;> rw [e]
  · exact hd
  · exact writeReg_notDone hd _ _
  · exact hd

theorem hostStep_notDone {s t : State} (hd : s.status.done = false) (h : hostStep s = .next t) : t.status.done = false := by
  obtain ⟨-, hu | ⟨off, n, v, hu⟩⟩ := hostStep_cases h
  · rw [status_eq_of_unitPart_eq hu, hd]
  · rw [status_eq_of_unitPart_eq hu]
    exact memWrite_notDone hd off n v

/-- Nothing is scheduled, the host moves alone, and no command has completed. -/
structure HostAloneNotDone (s : State) : Prop where
  unscheduled : s.schedule = []
  hostOnly : s.order = .hostOnly
  notDone : s.status.done = false

theorem HostAloneNotDone.step {s t : State} (hs : HostAloneNotDone s) (h : step s = .next t) : HostAloneNotDone t := by
  rw [step_hostOnly hs.unscheduled hs.hostOnly] at h
  obtain ⟨⟨-, -, hsch, ho⟩, -⟩ := hostStep_cases h
  exact ⟨hsch.trans hs.unscheduled, ho.trans hs.hostOnly, hostStep_notDone hs.notDone h⟩

/-! ### WAIT under a host that moves alone (30_encoding.md rule R104) -/

/-- STATUS bit 0 is BUSY. -/
theorem statusWord_and_one {st : Status} (h : st.busy = true) : statusWord st &&& 0x1#32 ≠ 0#32 := by
  have bit : (statusWord st &&& 0x1#32).toNat = 1 := by
    rw [BitVec.toNat_and, show (0x1#32).toNat = 1 from rfl, Nat.and_one_is_mod, toNat_statusWord, h, Bool.toNat_true]
    omega
  intro h0
  simp [h0] at bit

/-- Where a host inside WAIT stands, with what it has learnt: after the read h7 holds a STATUS word with BUSY, after the mask
a value that is not 0. -/
def WaitPlace (h : HostAgent) (st : Status) : Prop :=
  h.line = 0 ∨ h.line = 1 ∨ (h.line = 2 ∧ h.vars.h7 = statusWord st) ∨ (h.line = 3 ∧ h.vars.h7 ≠ 0#32)

/-- A BUSY unit whose host moves alone and is inside WAIT. -/
structure BusyInWait (l : Nat) (s : State) : Prop where
  unscheduled : s.schedule = []
  hostOnly : s.order = .hostOnly
  phase : s.phase = .busy
  busy : s.status.busy = true
  program : s.host.program = pseudoWait l
  running : s.host.outcome = .running
  place : WaitPlace s.host s.status

theorem BusyInWait.line_lt {l : Nat} {s : State} (hs : BusyInWait l s) : s.host.line < (pseudoWait l).length := by
  have length : (pseudoWait l).length = 4 := rfl
  have place := hs.place
  rw [WaitPlace] at place
  omega

/-- The step of a host at line k of WAIT. -/
theorem BusyInWait.step_line {l : Nat} {s : State} (hs : BusyInWait l s) {k : Nat} (hk : s.host.line = k) {op : HostOp}
    (hop : (pseudoWait l)[k]? = some op) : Machine.step s = hostLine op s := by
  rw [step_hostOnly hs.unscheduled hs.hostOnly]
  exact hostStep_line hs.running (by rw [hs.program, hk, hop])

theorem BusyInWait.step {l : Nat} {s : State} (hs : BusyInWait l s) : ∃ t, step s = .next t ∧ BusyInWait l t := by
  have move {h : HostAgent} (hp : h.program = s.host.program) (ho : h.outcome = s.host.outcome)
      (place : WaitPlace h s.status) : BusyInWait l { s with host := h } :=
    ⟨hs.unscheduled, hs.hostOnly, hs.phase, hs.busy, hp.trans hs.program, ho.trans hs.running, place⟩
  -- The four lines in order: the label, the read of STATUS, the mask of BUSY, the branch back to the label.
  rcases hs.place with hk | hk | ⟨hk, h7⟩ | ⟨hk, h7⟩
  · exact ⟨_, hs.step_line hk rfl, move rfl rfl (.inr (.inl (congrArg (· + 1) hk)))⟩
  · have hr : memRead 0x08 4 s = (.data (statusWord s.status), s) := memRead_exact (by decide)
    have hd := hostRead_data (off := 0x08#32) (congrArg Prod.fst hr) .h7
    rw [show (0x08#32).toNat = 0x08 from rfl, hr] at hd
    refine ⟨_, (hs.step_line hk rfl).trans (congrArg Host.Outcome.next hd), ?_⟩
    exact move rfl rfl (.inr (.inr (.inl ⟨congrArg (· + 1) hk, rfl⟩)))
  · refine ⟨_, hs.step_line hk rfl, move rfl rfl (.inr (.inr (.inr ⟨congrArg (· + 1) hk, ?_⟩)))⟩
    show s.host.vars.h7 &&& 0x1#32 ≠ 0#32
    rw [h7]
    exact statusWord_and_one hs.busy
  · have label : labelLine s.host.program l = some 0 := by
      simp [hs.program, pseudoWait, labelLine, List.findIdx?_cons]
    have branch : hostLine (.bnei .h7 0#32 l) s = .next (atLine 0 s) := (if_neg h7).trans (hostJump_of_labelLine label)
    exact ⟨_, (hs.step_line hk rfl).trans branch, move rfl rfl (.inl rfl)⟩

/-! ### The settled statements -/

/-- Settles O3. -/
theorem exactlyTheTenEncodedWordsDecode : Obligations.ExactlyTheTenEncodedWordsDecode :=
  ⟨fun _ _ => decode_eq_command_iff, fun _ => exists_decode_eq_command_iff, fun _ => exists_decode_eq_illegal_iff⟩

/-- Settles O6: a completion step that is not held ends with Finish; the host alone keeps DONE clear, and in WAIT it only ever
reads BUSY as 1. -/
theorem theEngineMovesOnlyWhileBusyAndThenCompletes : Obligations.TheEngineMovesOnlyWhileBusyAndThenCompletes := by
  refine ⟨fun s rest hsch => ⟨fun hp => ?_, fun hp hh => ?_⟩, fun s hsch ho hp hh => ?_, fun n s t hsch ho hd h => ?_,
    fun s l n hsch ho hp hb hprog hline hrun => ?_⟩
  · rw [step_scheduled hsch]
    exact engineStep_idle hp
  · obtain ⟨t, ht, hc, hs⟩ := completionStep_completes (s := { s with schedule := rest }) (mt engineHeld_iff.1 hh)
    refine ⟨t, ?_, hc.phase, hc.busy, hc.done, hc.lastOpc, hc.errf, hc.cmd, hc.irqEn, hs⟩
    rw [step_scheduled_engine hsch hp, ht]
  · have unheld := mt engineHeld_iff.1 hh
    obtain ⟨t, ht, hc, -⟩ := completionStep_completes unheld
    exact ⟨t, (step_engineFirst hsch ho hp unheld).trans ht, hc.phase, hc.busy, hc.done, hc.lastOpc, hc.errf, hc.cmd,
      hc.irqEn⟩
  · exact (run_keeps (fun _ _ => HostAloneNotDone.step) n ⟨hsch, ho, hd⟩ h).notDone
  · obtain ⟨t, ht, hw⟩ := run_next_keeps (fun _ => BusyInWait.step (l := l)) n
      ⟨hsch, ho, hp, hb, hprog, hrun, .inl hline⟩
    exact ⟨t, ht, hw.phase, hw.running, hw.line_lt⟩

/-- Settles O58: a well-formed program is kept by every step and makes it have a next state. -/
theorem wellFormedHostProgramsNeverStop : Obligations.WellFormedHostProgramsNeverStop := by
  refine ⟨fun s hp n => ?_, fun s l hl => hostJump_undefined hl⟩
  have progress (u : State) (hu : WellFormed.hostProgram u.host.program = true) :
      ∃ t, step u = .next t ∧ WellFormed.hostProgram t.host.program = true := by
    obtain ⟨t, ht⟩ := step_next hu
    exact ⟨t, ht, by rw [step_program ht, hu]⟩
  obtain ⟨t, ht, -⟩ := run_next_keeps progress n hp
  exact ⟨t, ht⟩

/-- Settles O1: the ten words are the ten encodings. -/
theorem theTenCommandWordsDecodeToTheTenCommands : Obligations.TheTenCommandWordsDecodeToTheTenCommands :=
  ⟨decode_encode .add, decode_encode .sub, decode_encode .mul, decode_encode .div, decode_encode .inv, decode_encode .eval,
    decode_encode .interp0, decode_encode .split, decode_encode .combine, decode_encode .zeroize, by decide, by decide,
    by decide⟩

/-- Settles O2. -/
theorem decodingAnEncodedCommandGivesItBack : Obligations.DecodingAnEncodedCommandGivesItBack := commandWord_encode

/-- Settles O4. -/
theorem aStepRunsTheDecodedCommand : Obligations.AStepRunsTheDecodedCommand := by
  refine ⟨fun s i hp hd => ⟨fun rest hsch => ?_, fun hsch ho hh => ?_⟩, fun s => step_hostOnly, fun s => step_free⟩
  · rw [step_scheduled_engine hsch hp]
    exact completionStep_command hd
  · have unheld : ¬engineHeld s = true := fun h => by
      obtain ⟨hs, hc⟩ := engineHeld_iff.1 h
      exact hh ⟨Decoded.command.inj (hd.symm.trans hs), hc⟩
    rw [step_engineFirst hsch ho hp unheld, completionStep_command hd]

/-- Settles O5. -/
theorem anIllegalWordCompletesWithErrorOneOnly : Obligations.AnIllegalWordCompletesWithErrorOneOnly := by
  intro s w hw
  refine ⟨fun hp => memWrite_register hp (by decide) rfl w, fun rest hp hcmd hsch => ?_⟩
  subst hcmd
  rw [step_scheduled_engine hsch hp]
  exact completionStep_illegal (decode_illegal_of_fields hw)

/-- Settles O46. -/
theorem acceptanceStoresTheWordAndSetsBusy : Obligations.AcceptanceStoresTheWordAndSetsBusy :=
  fun _ w => ⟨fun hp => memWrite_register hp (by decide) rfl w, fun hp => memWrite_cmd_busy hp w⟩

/-- Settles O59: the host's step by outcome and line, and each line without a transaction by its rule. -/
theorem hostLinesComputeAndBranch : Obligations.HostLinesComputeAndBranch := by
  refine ⟨getVar_setVar, fun s rest hsch => ?_, fun s d m imm k l line => ⟨rfl, rfl, rfl, rfl, rfl, fun hl => ?_⟩⟩
  · rw [step_scheduled hsch]
    exact ⟨fun op ho hop => hostStep_line ho hop, fun ho hn => hostStep_pastEnd ho hn, fun ho => hostStep_stopped ho⟩
  · have jump := hostJump_of_labelLine hl
    refine ⟨jump, ?_, ?_⟩ <;> simp only [hostLine] <;> split
    · exact jump
    · rfl
    · rfl
    · exact jump

/-- Settles O60: a host line by the answer of its bus access. -/
theorem hostTransactionsReachTheWindowWhereverItStands : Obligations.HostTransactionsReachTheWindowWhereverItStands := by
  refine ⟨getVar_setVar, fun v h x => ⟨rfl, rfl⟩, fun s n off h v =>
    ⟨⟨_, rfl, unitPart_hostRead n h off s, fun x hx => ?_, fun he => ?_⟩,
      ⟨_, rfl, hostWrite_vars n off _ s, unitPart_hostWrite n off _ s, fun hok => ?_, fun he => ?_⟩⟩⟩
  · rw [hostRead_data hx]
    simp
  · rw [hostRead_busError he]
    simp
  · rw [hostWrite_ok hok]
    simp
  · obtain ⟨-, -, -, unchanged⟩ := aBusErrorChangesNothing s off.toNat n (hostVal s.host.vars v)
    rw [unitPart_hostWrite, unchanged he, hostWrite_busError he]
    simp

end Sys2Proof.Machine

/-! ## Proofs of the statements about the field (40_field.md)

First the laws these proofs share: the polynomial of a byte and its residue modulo x^8 + x^4 + x^3 + x + 1, the field
functions on residues, the inverse, and how a field command ends. Then the theorems that settle the obligations. -/

namespace Sys2Proof.Machine

open Polynomial

/-! ### The polynomial of a byte (40_field.md rule R111) -/

theorem bytePolynomial_coeff (a : Byte) (i : Nat) : (bytePolynomial a).coeff i = if a.getLsbD i then 1 else 0 := by
  have term (j : Nat) : (if a.getLsbD j then (X : (ZMod 2)[X]) ^ j else 0).coeff i =
      if i = j then (if a.getLsbD i then 1 else 0) else 0 := by
    by_cases hij : i = j
    · subst hij
      split <;> simp
    · split <;> simp [coeff_X_pow, hij]
  rw [bytePolynomial, finsetSum_coeff, Finset.sum_congr rfl fun j _ => term j, Finset.sum_ite_eq]
  by_cases hi : i < 8
  · rw [if_pos (Finset.mem_range.2 hi)]
  · rw [if_neg (by simpa using hi), BitVec.getLsbD_of_ge a i (by omega)]
    rfl

@[simp] theorem bytePolynomial_zero : bytePolynomial 0x00#8 = 0 := by simp [bytePolynomial]

theorem bytePolynomial_xor (a b : Byte) : bytePolynomial (a ^^^ b) = bytePolynomial a + bytePolynomial b := by
  ext i
  rw [coeff_add, bytePolynomial_coeff, bytePolynomial_coeff, bytePolynomial_coeff, BitVec.getLsbD_xor]
  cases a.getLsbD i <;> cases b.getLsbD i <;> decide

theorem bytePolynomial_shift {i : Nat} (hi : i < 8) : bytePolynomial (0x01#8 <<< i) = X ^ i := by
  ext j
  rw [bytePolynomial_coeff, coeff_X_pow, BitVec.getLsbD_shiftLeft]
  have bit : (decide (j < 8) && !decide (j < i) && (0x01#8).getLsbD (j - i)) = decide (j = i) := by
    rw [Bool.eq_iff_iff]
    simp only [Bool.and_eq_true, Bool.not_eq_true', decide_eq_true_eq, decide_eq_false_iff_not, BitVec.getLsbD_one]
    omega
  simp only [bit, decide_eq_true_eq]

theorem bytePolynomial_injective : Function.Injective bytePolynomial := by
  intro a b h
  refine BitVec.eq_of_getLsbD_eq fun i _ => ?_
  have hc := congrArg (coeff · i) h
  simp only [bytePolynomial_coeff] at hc
  revert hc
  cases a.getLsbD i <;> cases b.getLsbD i <;> decide

theorem bytePolynomial_degree_lt (a : Byte) : (bytePolynomial a).degree < 8 :=
  (degree_lt_iff_coeff_zero _ 8).2 fun i hi => by
    rw [bytePolynomial_coeff, BitVec.getLsbD_of_ge a i hi]
    rfl

theorem aesPolynomial_degree : aesPolynomial.degree = 8 := by
  rw [aesPolynomial]
  compute_degree!

theorem aesPolynomial_monic : aesPolynomial.Monic := by
  rw [aesPolynomial]
  monicity!

/-- A byte's polynomial is reduced. -/
theorem bytePolynomial_modByMonic (a : Byte) : bytePolynomial a %ₘ aesPolynomial = bytePolynomial a :=
  (modByMonic_eq_self_iff aesPolynomial_monic).2 (aesPolynomial_degree ▸ bytePolynomial_degree_lt a)

/-! ### Residues modulo x^8 + x^4 + x^3 + x + 1 -/

/-- Polynomials over GF(2) modulo x^8 + x^4 + x^3 + x + 1. -/
abbrev AesRing : Type := AdjoinRoot aesPolynomial

/-- The residue of a byte's polynomial. -/
noncomputable def residue (a : Byte) : AesRing := AdjoinRoot.mk aesPolynomial (bytePolynomial a)

/-- The residue of x. -/
noncomputable def rootX : AesRing := AdjoinRoot.root aesPolynomial

/-- Equal residues are equal remainders. -/
theorem bytePolynomial_eq_modByMonic {a : Byte} {p : (ZMod 2)[X]} (h : residue a = AdjoinRoot.mk aesPolynomial p) :
    bytePolynomial a = p %ₘ aesPolynomial := by
  rw [← modByMonic_eq_of_dvd_sub aesPolynomial_monic (AdjoinRoot.mk_eq_mk.1 h), bytePolynomial_modByMonic]

theorem residue_injective : Function.Injective residue := fun _ b h =>
  bytePolynomial_injective ((bytePolynomial_eq_modByMonic h).trans (bytePolynomial_modByMonic b))

theorem aesRing_charTwo : CharP AesRing 2 := by
  have : Nontrivial AesRing := AdjoinRoot.nontrivial _ (by rw [aesPolynomial_degree]; decide)
  exact charP_of_injective_algebraMap (algebraMap (ZMod 2) AesRing).injective 2

@[simp] theorem residue_zero : residue 0x00#8 = 0 := by rw [residue, bytePolynomial_zero, map_zero]

@[simp] theorem residue_xor (a b : Byte) : residue (a ^^^ b) = residue a + residue b := by
  rw [residue, bytePolynomial_xor, map_add, residue, residue]

theorem residue_shift {i : Nat} (hi : i < 8) : residue (0x01#8 <<< i) = rootX ^ i := by
  rw [residue, bytePolynomial_shift hi, map_pow, AdjoinRoot.mk_X, rootX]

@[simp] theorem residue_one : residue 0x01#8 = 1 := (residue_shift (by decide : 0 < 8)).trans (pow_zero _)

theorem residue_two : residue 0x02#8 = rootX := (residue_shift (by decide : 1 < 8)).trans (pow_one _)

/-- What replaces x^8: the residue of 0x1B (R110). -/
theorem residue_reduction : residue 0x1B#8 = rootX ^ 8 := by
  have bits : (0x1B#8 : Byte) = (0x01#8 <<< 4) ^^^ (0x01#8 <<< 3) ^^^ (0x01#8 <<< 1) ^^^ (0x01#8 <<< 0) := by decide
  have zero : rootX ^ 8 + residue 0x1B#8 = 0 := by
    rw [bits, residue_xor, residue_xor, residue_xor, residue_shift (by decide), residue_shift (by decide),
      residue_shift (by decide), residue_shift (by decide)]
    have h : AdjoinRoot.mk aesPolynomial (X ^ 8 + X ^ 4 + X ^ 3 + X + 1) = 0 := AdjoinRoot.mk_self
    simp only [map_add, map_pow, map_one, AdjoinRoot.mk_X] at h
    simpa only [rootX, pow_zero, pow_one, add_assoc] using h
  have := aesRing_charTwo
  exact (CharTwo.add_eq_zero.1 zero).symm

/-! ### The field functions on residues (40_field.md rules R110 to R115) -/

@[simp] theorem residue_xtime (a : Byte) : residue (xtime a) = rootX * residue a := by
  induction a using byte_induction with
  | zero => simp
  | basis i hi =>
    rw [residue_shift hi, ← pow_succ']
    by_cases h7 : i = 7
    · subst h7
      exact residue_reduction
    · have shift : ∀ j < 7, xtime (0x01#8 <<< j) = 0x01#8 <<< (j + 1) := by decide
      rw [shift i (by omega), residue_shift (by omega)]
  | xor a b ha hb => rw [xtime_xor, residue_xor, residue_xor, ha, hb, mul_add]

theorem residue_xtime_iterate (a : Byte) (i : Nat) : residue (xtime^[i] a) = residue a * rootX ^ i := by
  induction i with
  | zero => simp
  | succ i ih => rw [Function.iterate_succ_apply', residue_xtime, ih]; ring

@[simp] theorem gmul_zero (a : Byte) : gmul a 0x00#8 = 0x00#8 := by
  have h := gmul_xor_right a 0x00#8 0x00#8
  rwa [BitVec.xor_self, BitVec.xor_self] at h

@[simp] theorem residue_gmul (a b : Byte) : residue (gmul a b) = residue a * residue b := by
  induction b using byte_induction with
  | zero => simp
  | basis i hi => rw [gmul_basis a hi, residue_xtime_iterate, residue_shift hi]
  | xor b c hb hc => rw [gmul_xor_right, residue_xor, residue_xor, hb, hc, mul_add]

@[simp] theorem residue_gpow (a : Byte) (n : Nat) : residue (gpow a n) = residue a ^ n := by
  induction n with
  | zero => simp [gpow]
  | succ n ih => rw [gpow, residue_gmul, ih, pow_succ]

/-- The repeated squaring of `ginv` gives the 254th power. -/
@[simp] theorem residue_ginv (a : Byte) : residue (ginv a) = residue a ^ 254 := by
  simp only [ginv, residue_gmul]
  ring

/-! ### The inverse (40_field.md rule R114) -/

theorem rootX_pow_card : rootX ^ 2 ^ 8 = rootX := by
  have h : gmul 0x02#8 (gmul 0x02#8 (ginv 0x02#8)) = 0x02#8 := by decide +kernel
  have hr := congrArg residue h
  simp only [residue_gmul, residue_ginv, residue_two] at hr
  calc rootX ^ 2 ^ 8 = rootX * (rootX * rootX ^ 254) := by ring
    _ = rootX := hr

/-- The 256th power is additive in characteristic 2 and fixes x, so it fixes every byte. -/
theorem residue_pow_card (a : Byte) : residue a ^ 2 ^ 8 = residue a := by
  induction a using byte_induction with
  | zero => simp
  | basis i hi => rw [residue_shift hi, ← pow_mul, mul_comm, pow_mul, rootX_pow_card]
  | xor a b ha hb =>
    have := aesRing_charTwo
    rw [residue_xor, add_pow_char_pow, ha, hb]

/-- The only idempotents are 0 and 1, which is what makes the modulus irreducible. -/
theorem eq_zero_or_one_of_gmul_self {a : Byte} (h : gmul a a = a) : a = 0x00#8 ∨ a = 0x01#8 := by
  revert a
  decide +kernel

/-- The product of a and a^254 is idempotent and, for a ≠ 0, not 0. -/
theorem gmul_ginv {a : Byte} (ha : a ≠ 0x00#8) : gmul a (ginv a) = 0x01#8 := by
  have fixed := residue_pow_card a
  have idem : gmul (gmul a (ginv a)) (gmul a (ginv a)) = gmul a (ginv a) := by
    apply residue_injective
    simp only [residue_gmul, residue_ginv]
    calc _ = residue a ^ 2 ^ 8 * residue a ^ 254 := by ring
      _ = residue a * residue a ^ 254 := by rw [fixed]
  refine (eq_zero_or_one_of_gmul_self idem).resolve_left fun h0 => ha (residue_injective ?_)
  have hr := congrArg residue h0
  simp only [residue_gmul, residue_ginv, residue_zero] at hr
  calc residue a = residue a ^ 2 ^ 8 := fixed.symm
    _ = residue a * (residue a * residue a ^ 254) := by ring
    _ = residue 0x00#8 := by rw [hr, mul_zero, residue_zero]

/-! ### The laws of `gmul` (40_field.md rule R122) -/

theorem gmul_comm (a b : Byte) : gmul a b = gmul b a := residue_injective (by simp only [residue_gmul, mul_comm])

theorem gmul_assoc (a b c : Byte) : gmul (gmul a b) c = gmul a (gmul b c) :=
  residue_injective (by simp only [residue_gmul, mul_assoc])

@[simp] theorem gmul_one (a : Byte) : gmul a 0x01#8 = a := residue_injective (by simp)

@[simp] theorem zero_gmul (a : Byte) : gmul 0x00#8 a = 0x00#8 := residue_injective (by simp)

/-- Multiplying by b ≠ 0 and then by its inverse changes nothing. -/
theorem gmul_gmul_ginv (a : Byte) {b : Byte} (hb : b ≠ 0x00#8) : gmul (gmul a b) (ginv b) = a := by
  rw [gmul_assoc, gmul_ginv hb, gmul_one]

theorem gmul_gdiv (a : Byte) {b : Byte} (hb : b ≠ 0x00#8) : gmul (gdiv a b) b = a := by
  rw [gdiv, gmul_assoc, gmul_comm (ginv b), gmul_ginv hb, gmul_one]

theorem gmul_eq_zero {a b : Byte} (h : gmul a b = 0x00#8) : a = 0x00#8 ∨ b = 0x00#8 := by
  by_cases hb : b = 0x00#8
  · exact .inr hb
  · refine .inl ?_
    rw [← gmul_gmul_ginv a hb, h, zero_gmul]

/-! ### How a field command ends (30_encoding.md rule R98) -/

theorem opcOf_encode (i : Instr) : opcOf (encode i) = opcode i := by cases i <;> rfl

theorem opcOf_cmd {i : Instr} {s : State} (hc : s.cmd = encode i) : opcOf s.cmd = opcode i := by rw [hc, opcOf_encode]

/-- A command of one result byte that succeeds writes RESULT and what a completion writes. -/
theorem succeed_setResult {i : Instr} {s : State} (hc : s.cmd = encode i) (v : Byte) :
    succeed (setResult v s) = doneWith (opcode i) { s with result := v } := by
  rw [← opcOf_cmd hc]
  rfl

/-- A command that fails writes STATUS and ERR_INFO only. -/
theorem raiseError_eq_failedWith {i : Instr} {s : State} (hc : s.cmd = encode i) {code : ErrorCode} (hne : code ≠ .ok)
    (info : Half) : raiseError code info s = failedWith (opcode i) (errorByte code) info s := by
  have flag : errfOf (errorByte code) = true := by
    cases code with
    | ok => exact absurd rfl hne
    | _ => rfl
  rw [raiseError, finish, completedStatus, flag, opcOf_cmd hc, failedWith]

/-! ### The obligations -/

/-- Settles O12: the residue of the product is the product of the residues, and a byte's polynomial is reduced. -/
theorem gmulIsThePolynomialProductModulo0x11B : Obligations.GmulIsThePolynomialProductModulo0x11B := fun a b =>
  bytePolynomial_eq_modByMonic (by rw [residue_gmul, residue, residue, map_mul])

/-- Settles O13. -/
theorem fieldMultiplicationLaws : Obligations.FieldMultiplicationLaws :=
  ⟨gmul_comm, gmul_assoc, gmul_xor_right, fun a => ⟨gmul_one a, gmul_zero a⟩, fun _ _ => gmul_eq_zero⟩

/-- Settles O15: the power by residues, uniqueness by cancelling a. -/
theorem theInverseIsThe254thPowerAndUnique : Obligations.TheInverseIsThe254thPowerAndUnique := by
  refine fun a ha => ⟨residue_injective (by rw [residue_ginv, residue_gpow]), fun b => ⟨fun h => ?_, fun h => ?_⟩⟩
  · calc b = gmul (gmul b a) (ginv a) := (gmul_gmul_ginv b ha).symm
      _ = gmul 0x01#8 (ginv a) := by rw [gmul_comm b, h]
      _ = ginv a := by rw [gmul_comm, gmul_one]
  · rw [h, gmul_ginv ha]

/-- Settles O16. -/
theorem divisionUndoesMultiplication : Obligations.DivisionUndoesMultiplication := fun a _ hb =>
  ⟨gmul_gmul_ginv a hb, gmul_gdiv a hb, rfl, gmul_ginv hb⟩

/-- Settles O7. -/
theorem addWritesTheXorOfItsOperands : Obligations.AddWritesTheXorOfItsOperands := fun _ hc =>
  ⟨decode_eq_command_iff.2 hc, congrArg Host.Outcome.next (succeed_setResult (i := .add) hc _)⟩

/-- Settles O8. -/
theorem subWritesTheXorOfItsOperands : Obligations.SubWritesTheXorOfItsOperands := fun _ hc =>
  ⟨decode_eq_command_iff.2 hc, congrArg Host.Outcome.next (succeed_setResult (i := .sub) hc _)⟩

/-- Settles O9. -/
theorem mulWritesTheFieldProduct : Obligations.MulWritesTheFieldProduct := fun _ hc =>
  ⟨decode_eq_command_iff.2 hc, congrArg Host.Outcome.next (succeed_setResult (i := .mul) hc _)⟩

/-- Settles O10: the two branches of DIV. -/
theorem divWritesTheQuotientOrRaisesDivZero : Obligations.DivWritesTheQuotientOrRaisesDivZero := by
  refine fun s hc => ⟨decode_eq_command_iff.2 hc, fun hb => ?_, fun hb => ?_⟩
  · rw [exec, execDiv, if_neg hb]
    exact congrArg Host.Outcome.next (succeed_setResult (i := .div) hc _)
  · rw [exec, execDiv, if_pos hb]
    exact congrArg Host.Outcome.next (raiseError_eq_failedWith (i := .div) (code := .divZero) hc (by decide) _)

/-- Settles O11: the two branches of INV, neither of which reads OPB. -/
theorem invWritesTheInverseOrRaisesInvZero : Obligations.InvWritesTheInverseOrRaisesInvZero := by
  refine fun s hc => ⟨decode_eq_command_iff.2 hc, fun ha b => ?_, fun ha b => ?_⟩
  · rw [exec, execInv, if_neg ha]
    exact congrArg Host.Outcome.next (succeed_setResult (i := .inv) (s := { s with opb := b }) hc _)
  · rw [exec, execInv, if_pos ha]
    exact congrArg Host.Outcome.next
      (raiseError_eq_failedWith (i := .inv) (s := { s with opb := b }) (code := .invZero) hc (by decide) _)

/-- Settles O14. -/
theorem fieldAdditionLaws : Obligations.FieldAdditionLaws :=
  ⟨BitVec.xor_comm, BitVec.xor_assoc, fun _ => ⟨BitVec.xor_zero, BitVec.zero_xor, BitVec.xor_self⟩, fun _ _ => rfl⟩

end Sys2Proof.Machine

/-! ## Proofs of the statements about polynomials (41_polynomial.md)

First the laws these proofs share: sums and products of residues, the field of residues and Lagrange's interpolation over it, the
scan of check_indices, and how EVAL, INTERP0 and a ready SPLIT end. Then the theorems that settle the obligations. -/

namespace Sys2Proof.Machine

open Polynomial

/-! ### Horner evaluation (41_polynomial.md rule R140) -/

@[simp] theorem residue_gadd (a b : Byte) : residue (gadd a b) = residue a + residue b := residue_xor a b

@[simp] theorem residue_gsub (a b : Byte) : residue (gsub a b) = residue a + residue b := residue_xor a b

/-- A field sum in a loop is a sum of residues. -/
theorem residue_foldl_gadd (f : Nat → Byte) (n : Nat) :
    residue ((List.range n).foldl (fun acc d => gadd acc (f d)) 0x00#8) = ∑ d ∈ Finset.range n, residue (f d) := by
  induction n with
  | zero => exact residue_zero
  | succ n ih => rw [List.range_succ, List.foldl_concat, residue_gadd, ih, Finset.sum_range_succ]

theorem horner_cons (b : Byte) (c : List Byte) (x : Byte) : horner (b :: c) x = gadd (gmul (horner c x) x) b := rfl

/-- The value at 0 is the constant term. -/
theorem horner_at_zero (c : List Byte) : horner c 0x00#8 = c.getD 0 0x00#8 := by
  cases c with
  | nil => rfl
  | cons b c => rw [horner_cons, gmul_zero, gadd, BitVec.zero_xor, List.getD_cons_zero]

theorem residue_horner (c : List Byte) (x : Byte) :
    residue (horner c x) = ∑ d ∈ Finset.range c.length, residue (c.getD d 0x00#8) * residue x ^ d := by
  induction c with
  | nil => exact residue_zero
  | cons b c ih =>
    rw [horner_cons, residue_gadd, residue_gmul, ih, List.length_cons, Finset.sum_range_succ', Finset.sum_mul]
    simp only [List.getD_cons_succ, List.getD_cons_zero, pow_zero, mul_one, pow_succ, mul_assoc]

/-- The polynomial over the residues whose coefficients are a list's bytes. -/
noncomputable def hornerPolynomial (c : List Byte) : AesRing[X] :=
  ∑ d ∈ Finset.range c.length, C (residue (c.getD d 0x00#8)) * X ^ d

theorem hornerPolynomial_eval (c : List Byte) (x : Byte) :
    (hornerPolynomial c).eval (residue x) = residue (horner c x) := by
  rw [residue_horner, hornerPolynomial, eval_finsetSum]
  simp only [eval_mul, eval_C, eval_pow, eval_X]

theorem hornerPolynomial_degree_lt (c : List Byte) : (hornerPolynomial c).degree < c.length :=
  mem_degreeLT.1 <| Submodule.sum_mem _ fun d hd => mem_degreeLT.2 <|
    (degree_C_mul_X_pow_le d _).trans_lt (Nat.cast_lt.2 (Finset.mem_range.1 hd))

/-! ### The field of residues (40_field.md rule R110) -/

/-- Every residue is a byte's: the bytes' residues hold x and are closed under sum and product. -/
theorem residue_surjective : Function.Surjective residue := by
  intro r
  obtain ⟨p, rfl⟩ := AdjoinRoot.mk_surjective r
  induction p using Polynomial.induction_on with
  | C a =>
    rcases (by decide : ∀ a : ZMod 2, a = 0 ∨ a = 1) a with rfl | rfl
    · exact ⟨0x00#8, by rw [residue_zero, C_0, map_zero]⟩
    · exact ⟨0x01#8, by rw [residue_one, C_1, map_one]⟩
  | add p q hp hq =>
    obtain ⟨a, ha⟩ := hp
    obtain ⟨b, hb⟩ := hq
    exact ⟨a ^^^ b, by rw [residue_xor, ha, hb, map_add]⟩
  | monomial n a h =>
    obtain ⟨b, hb⟩ := h
    refine ⟨gmul b 0x02#8, ?_⟩
    rw [residue_gmul, hb, residue_two, pow_succ, ← mul_assoc, map_mul _ _ X, AdjoinRoot.mk_X, rootX]

theorem aesRing_isField : IsField AesRing where
  exists_pair_ne := ⟨residue 0x00#8, residue 0x01#8, fun h => absurd (residue_injective h) (by decide)⟩
  mul_comm := mul_comm
  mul_inv_cancel {r} hr := by
    obtain ⟨a, rfl⟩ := residue_surjective r
    have ha : a ≠ 0x00#8 := fun h => hr (by rw [h, residue_zero])
    exact ⟨residue (ginv a), by rw [← residue_gmul, gmul_ginv ha, residue_one]⟩

/-- The modulus is irreducible, which makes Mathlib's `AdjoinRoot` a field. -/
theorem aesPolynomial_irreducible : Irreducible aesPolynomial :=
  ((Ideal.span_singleton_prime aesPolynomial_monic.ne_zero).1
    (Ideal.Quotient.maximal_of_isField _ aesRing_isField).isPrime).irreducible

/-! ### Lagrange interpolation (41_polynomial.md rules R142 and R146) -/

/-- The factors of a Lagrange term, in a loop that skips one position, are a product of residues. -/
theorem residue_foldl_gmul_skip (f : Nat → Byte) (t : Byte) (j n : Nat) :
    residue ((List.range n).foldl (fun t m => if m = j then t else gmul t (f m)) t) =
      residue t * ∏ m ∈ (Finset.range n).erase j, residue (f m) := by
  rw [← Finset.filter_ne', Finset.prod_filter]
  induction n with
  | zero => exact (mul_one _).symm
  | succ n ih =>
    rw [List.range_succ, List.foldl_concat, Finset.prod_range_succ, ← mul_assoc, ← ih]
    by_cases h : n = j
    · rw [if_pos h, if_neg (not_not.2 h), mul_one]
    · rw [if_neg h, if_pos h, residue_gmul]

/-- The residue of the byte at a position, as the nodes and the values of Mathlib's interpolation. -/
noncomputable def residueAt (bs : List Byte) (j : Nat) : AesRing := residue (bs.getD j 0x00#8)

theorem residueAt_map {ps : List (Byte × Byte)} (g : Byte × Byte → Byte) {j : Nat} (hj : j < ps.length) :
    residueAt (ps.map g) j = residue (g ps[j]) := by
  rw [residueAt, List.getD_eq_getElem _ _ (by rwa [List.length_map]), List.getElem_map]

/-- Distinct bytes are distinct nodes. -/
theorem residueAt_injOn {xs : List Byte} (h : xs.Nodup) :
    Set.InjOn (residueAt xs) (Finset.range xs.length : Finset Nat) := by
  intro i hi j hj e
  rw [Finset.coe_range, Set.mem_Iio] at hi hj
  have e := residue_injective e
  rwa [List.getD_eq_getElem _ _ hi, List.getD_eq_getElem _ _ hj, h.getElem_inj_iff] at e

/-- A polynomial of degree below P through the P points. -/
structure Through (ps : List (Byte × Byte)) (f : AesRing[X]) : Prop where
  degree_lt : f.degree < ps.length
  eval_eq : ∀ p ∈ ps, f.eval (residue p.1) = residue p.2

theorem Through.perm {ps qs : List (Byte × Byte)} {f : AesRing[X]} (h : Through ps f) (e : ps.Perm qs) : Through qs f :=
  ⟨e.length_eq ▸ h.degree_lt, fun p hp => h.eval_eq p (e.mem_iff.2 hp)⟩

/-- The points of a polynomial at given x coordinates. -/
def pointsOn (p xs : List Byte) : List (Byte × Byte) := xs.map fun x => (x, horner p x)

@[simp] theorem pointsOn_fst (p xs : List Byte) : (pointsOn p xs).map Prod.fst = xs := by
  rw [pointsOn, List.map_map]
  exact List.map_id xs

@[simp] theorem pointsOn_snd (p xs : List Byte) : (pointsOn p xs).map Prod.snd = xs.map (horner p) := by
  rw [pointsOn, List.map_map]
  rfl

theorem through_pointsOn {p xs : List Byte} (h : p.length ≤ xs.length) : Through (pointsOn p xs) (hornerPolynomial p) where
  degree_lt := (hornerPolynomial_degree_lt p).trans_le (Nat.cast_le.2 (by rwa [pointsOn, List.length_map]))
  eval_eq q hq := by
    obtain ⟨x, -, rfl⟩ := List.mem_map.1 hq
    exact hornerPolynomial_eval p x

section Interpolation

variable [Fact (Irreducible aesPolynomial)]

theorem residue_ginv_eq_inv (a : Byte) : residue (ginv a) = (residue a)⁻¹ := by
  by_cases ha : a = 0x00#8
  · subst ha
    rw [residue_ginv, residue_zero, zero_pow (by decide), inv_zero]
  · exact eq_inv_of_mul_eq_one_right (by rw [← residue_gmul, gmul_ginv ha, residue_one])

/-- `lagrange0` is the value at 0 of Lagrange's interpolation polynomial. -/
theorem residue_lagrange0 (xs ys : List Byte) : residue (lagrange0 xs ys) =
    (Lagrange.interpolate (Finset.range xs.length) (residueAt xs) (residueAt ys)).eval 0 := by
  have := aesRing_charTwo
  rw [lagrange0, residue_foldl_gadd, Lagrange.interpolate_apply, eval_finsetSum]
  refine Finset.sum_congr rfl fun j _ => ?_
  rw [lagrangeTerm, residue_foldl_gmul_skip, eval_mul, eval_C, Lagrange.basis, eval_prod]
  refine congrArg _ (Finset.prod_congr rfl fun m _ => ?_)
  rw [gdiv, residue_gmul, residue_ginv_eq_inv, residue_gsub, Lagrange.basisDivisor, eval_mul, eval_C, eval_sub, eval_X, eval_C,
    zero_sub, CharTwo.neg_eq, CharTwo.sub_eq_add, mul_comm]
  rfl

/-- Some polynomial runs through any points with distinct x. -/
theorem exists_through {ps : List (Byte × Byte)} (h : (ps.map Prod.fst).Nodup) : ∃ f, Through ps f := by
  have nodes := residueAt_injOn h
  rw [List.length_map] at nodes
  refine ⟨Lagrange.interpolate (Finset.range ps.length) (residueAt (ps.map Prod.fst)) (residueAt (ps.map Prod.snd)), ?_, ?_⟩
  · exact (Lagrange.degree_interpolate_lt _ nodes).trans_eq (by rw [Finset.card_range])
  · intro p hp
    obtain ⟨j, hj, rfl⟩ := List.getElem_of_mem hp
    have value := Lagrange.eval_interpolate_at_node (residueAt (ps.map Prod.snd)) nodes (Finset.mem_range.2 hj)
    rwa [residueAt_map _ hj, residueAt_map _ hj] at value

/-- Uniqueness: `lagrange0` is the value at 0 of any polynomial of degree below P through the P points. -/
theorem residue_lagrange0_of_through {ps : List (Byte × Byte)} (h : (ps.map Prod.fst).Nodup) {f : AesRing[X]}
    (hf : Through ps f) : residue (lagrange0 (ps.map Prod.fst) (ps.map Prod.snd)) = f.eval 0 := by
  rw [residue_lagrange0, ← Lagrange.eq_interpolate_of_eval_eq _ (residueAt_injOn h)]
  · rw [Finset.card_range, List.length_map]
    exact hf.degree_lt
  · intro j hj
    rw [List.length_map, Finset.mem_range] at hj
    rw [residueAt_map _ hj, residueAt_map _ hj]
    exact hf.eval_eq _ (List.getElem_mem hj)

end Interpolation

/-! ### The scan of check_indices (41_polynomial.md rule R141) -/

theorem posInfo_eq_ofNat {j : Nat} (h : j ≤ 255) : posInfo j = BitVec.ofNat 16 j := by
  apply BitVec.eq_of_toNat_eq
  rw [posInfo, toNat_append_eq_add]
  simp only [BitVec.toNat_ofNat]
  omega

theorem posInfo2_eq_ofNat (m : Nat) {j : Nat} (hj : j ≤ 255) : posInfo2 m j = BitVec.ofNat 16 (m * 256 + j) := by
  apply BitVec.eq_of_toNat_eq
  rw [posInfo2, toNat_append_eq_add]
  simp only [BitVec.toNat_ofNat]
  omega

/-- `findIdx?` finds the first position that holds a byte. -/
theorem findIdx?_beq_eq_some {xs : List Byte} {x : Byte} {j : Nat} :
    xs.findIdx? (· == x) = some j ↔ ∃ h : j < xs.length, xs[j] = x ∧ ∀ k (hk : k < j), xs[k] ≠ x := by
  simp only [List.findIdx?_eq_some_iff_getElem, beq_iff_eq]

theorem findIdx?_beq_eq_none {xs : List Byte} {x : Byte} : xs.findIdx? (· == x) = none ↔ x ∉ xs := by
  simp only [List.findIdx?_eq_none_iff, beq_eq_false_iff_ne, List.forall_mem_ne']

theorem firstDup_cons_of_notMem {seen rest : List Byte} {x : Byte} (h : x ∉ seen) :
    firstDup seen (x :: rest) = firstDup (seen ++ [x]) rest := by
  rw [firstDup, findIdx?_beq_eq_none.2 h]

theorem firstDup_cons_of_findIdx {seen rest : List Byte} {x : Byte} {m : Nat} (h : seen.findIdx? (· == x) = some m) :
    firstDup seen (x :: rest) = some (m, seen.length) := by
  rw [firstDup, h]

/-- The scan runs through a part that repeats nothing. -/
theorem firstDup_append {seen part rest : List Byte} (h : (seen ++ part).Nodup) :
    firstDup seen (part ++ rest) = firstDup (seen ++ part) rest := by
  induction part generalizing seen with
  | nil => rw [List.nil_append, List.append_nil]
  | cons x part ih =>
    have fresh : x ∉ seen := fun hx => List.disjoint_of_nodup_append h hx List.mem_cons_self
    rw [List.append_cons] at h ⊢
    rw [List.cons_append, firstDup_cons_of_notMem fresh, ih h]

/-- The scan finds nothing exactly when nothing repeats. -/
theorem firstDup_eq_none_iff {seen rest : List Byte} (h : seen.Nodup) :
    firstDup seen rest = none ↔ (seen ++ rest).Nodup := by
  induction rest generalizing seen with
  | nil => rw [List.append_nil]; exact iff_of_true rfl h
  | cons x rest ih =>
    by_cases hx : x ∈ seen
    · obtain ⟨m, hm⟩ := Option.ne_none_iff_exists'.1 (mt findIdx?_beq_eq_none.1 (not_not.2 hx))
      rw [firstDup_cons_of_findIdx hm]
      exact iff_of_false (by simp) fun hn => List.disjoint_of_nodup_append hn hx List.mem_cons_self
    · rw [firstDup_cons_of_notMem hx, List.append_cons seen x rest, ih (List.concat_eq_append ▸ h.concat hx)]

/-- The scan names the first position j that repeats an earlier byte, and the first position m of that byte. -/
theorem firstDup_eq_some {xs : List Byte} {m j : Nat} (hm : m < j) (hj : j < xs.length) (distinct : (xs.take j).Nodup)
    (same : xs[m] = xs[j]) (first : ∀ k (hk : k < m), xs[k] ≠ xs[j]) : firstDup [] xs = some (m, j) := by
  have found : (xs.take j).findIdx? (· == xs[j]) = some m := by
    refine findIdx?_beq_eq_some.2 ⟨by rw [List.length_take]; omega, ?_, fun k hk => ?_⟩
    · rw [List.getElem_take, same]
    · rw [List.getElem_take]; exact first k hk
  calc firstDup [] xs = firstDup [] (xs.take j ++ xs[j] :: xs.drop (j + 1)) := by
        rw [← List.drop_eq_getElem_cons hj, List.take_append_drop]
    _ = firstDup (xs.take j) (xs[j] :: xs.drop (j + 1)) := firstDup_append distinct
    _ = some (m, (xs.take j).length) := firstDup_cons_of_findIdx found
    _ = some (m, j) := by rw [List.length_take_of_le hj.le]

theorem checkIndices_of_zero {xs : List Byte} {j : Nat} (h : xs.findIdx? (· == 0x00#8) = some j) :
    checkIndices xs = some (.zeroIndex, posInfo j) := by
  rw [checkIndices, h]

theorem checkIndices_of_dup {xs : List Byte} (h0 : 0x00#8 ∉ xs) {m j : Nat} (h : firstDup [] xs = some (m, j)) :
    checkIndices xs = some (.dupIndex, posInfo2 m j) := by
  rw [checkIndices, findIdx?_beq_eq_none.2 h0, h]

theorem checkIndices_eq_none_iff {xs : List Byte} : checkIndices xs = none ↔ 0x00#8 ∉ xs ∧ xs.Nodup := by
  rw [← findIdx?_beq_eq_none, ← List.nil_append xs, ← firstDup_eq_none_iff List.nodup_nil, List.nil_append, checkIndices]
  cases xs.findIdx? (· == 0x00#8) with
  | some j => simp
  | none => cases firstDup [] xs <;> simp

/-! ### How EVAL, INTERP0 and a ready SPLIT end (41_polynomial.md rules R143 and R145, 42_sharing.md rule R160) -/

theorem exec_eval (s : State) : exec .eval s = .next (succeed (setResult (horner (coefs s) s.opa) s)) := rfl

theorem exec_interp0_of_check_some {s : State} {code : ErrorCode} {info : Half} (h : interp0Check s = some (code, info)) :
    exec .interp0 s = .next (raiseError code info s) := by
  rw [exec, execInterp0, h]

theorem exec_interp0_of_check_none {s : State} (h : interp0Check s = none) :
    exec .interp0 s = .next (succeed (setResult (lagrange0 (pointXs s) (pointYs s)) s)) := by
  rw [exec, execInterp0, h]

theorem interp0Check_of_few {s : State} (h : s.count.toNat < 2) : interp0Check s = some (.tooFew, 0x0000#16) := if_pos h

theorem interp0Check_of_two_le {s : State} (h : 2 ≤ s.count.toNat) : interp0Check s = checkIndices (pointXs s) :=
  if_neg (Nat.not_lt.2 h)

/-- An INTERP0 whose checks fail. -/
theorem exec_interp0_fails {s : State} (hc : s.cmd = encode .interp0) {code : ErrorCode} {info : Half} (hne : code ≠ .ok)
    (h : interp0Check s = some (code, info)) : exec .interp0 s = .next (failedWith 0x07#8 (errorByte code) info s) := by
  rw [exec_interp0_of_check_some h, raiseError_eq_failedWith hc hne, opcode]

theorem exec_split_ready {s : State} (h : SplitReady s) : exec .split s = .next (succeed (splitWrites s)) := by
  have checked : splitCheck s = none := splitCheck_none.2
    ⟨h.secretNonempty, h.thresholdAtLeastTwo, h.thresholdAtMostShares, h.sharesFitAByte, h.secretFits⟩
  rw [exec, execSplit, checked]
  exact if_neg (Nat.not_lt.2 h.drawsSupplied)

/-- Each of the polynomials has K coefficients. -/
theorem length_splitPolysOf_getD {s : State} (h : SplitReady s) {i : Nat} (hi : i < s.secretLen.toNat) :
    ((splitPolysOf s).getD i []).length = s.paramK.toNat := by
  have draws : (i + 1) * (s.paramK.toNat - 1) ≤ s.port.length :=
    (Nat.mul_le_mul_right _ hi).trans h.drawsSupplied
  have two := h.thresholdAtLeastTwo
  rw [Nat.succ_mul] at draws
  rw [splitPolysOf_getD hi, List.length_cons, List.length_take, List.length_drop]
  omega

/-- Byte 1 + i of the share of index x that SPLIT writes. -/
theorem readByte_splitWrites_payload {s : State} (h : SplitReady s) {x i : Nat} (hx : 1 ≤ x) (hxn : x ≤ s.paramN.toNat)
    (hi : i < s.secretLen.toNat) : readByte (splitWrites s).mem (slotAddr (x - 1) (1 + i)) =
      horner ((splitPolysOf s).getD i []) (BitVec.ofNat 8 x) := by
  have len := length_splitPolysOf s
  rw [splitWrites_mem, readByte_writeShares_slot h.sharesFitAByte (by omega) (by omega) (by omega),
    shareBytes_payload (by omega), Nat.sub_add_cancel hx]

/-- EVAL's coefficients are a list of COUNT bytes that COEF holds. -/
theorem coefs_eq {s : State} {c : List Byte} (hl : s.count.toNat = c.length)
    (h : ∀ d < c.length, readByte s.mem (coefAddr d) = c.getD d 0x00#8) : coefs s = c := by
  refine List.ext_getElem (by rw [coefs, List.length_map, List.length_range, hl]) fun d _ hd => ?_
  simp only [coefs, List.getElem_map, List.getElem_range]
  rw [h d hd, List.getD_eq_getElem _ _ hd]

/-! ### The obligations -/

/-- Settles O17: both sides have the residue of the sum. -/
theorem hornerIsTheSumOfCoefficientsTimesPowers : Obligations.HornerIsTheSumOfCoefficientsTimesPowers := by
  refine ⟨fun c x => residue_injective ?_, fun _ => rfl, fun c b x => horner_cons b c x⟩
  rw [residue_horner, residue_foldl_gadd]
  simp only [residue_gmul, residue_gpow]

/-- Settles O19: the zero scan and the duplicate scan, each at the first position it names. -/
theorem checkIndicesReportsTheFirstBadIndex : Obligations.CheckIndicesReportsTheFirstBadIndex := by
  refine fun xs len => ⟨checkIndices_eq_none_iff, fun j hj zero first => ?_, fun m j hm hj h0 same first distinct => ?_,
    rfl, rfl⟩
  · rw [← posInfo_eq_ofNat (by omega)]
    refine checkIndices_of_zero (findIdx?_beq_eq_some.2 ⟨hj, ?_, fun k hk => ?_⟩)
    · rwa [List.getD_eq_getElem _ _ hj] at zero
    · have := first k hk
      rwa [List.getD_eq_getElem _ _ (by omega)] at this
  · have get {k : Nat} (hk : k < xs.length) : xs.getD k 0x00#8 = xs[k] := List.getD_eq_getElem _ _ hk
    rw [← posInfo2_eq_ofNat m (by omega)]
    refine checkIndices_of_dup h0 (firstDup_eq_some hm hj ?_ ?_ fun k hk => ?_)
    · refine List.pairwise_iff_getElem.2 fun k j' _ hj' hk => ?_
      rw [List.length_take] at hj'
      have := distinct j' (by omega) k hk
      rw [get (by omega), get (by omega)] at this
      rwa [List.getElem_take, List.getElem_take]
    · rwa [get (by omega), get (by omega)] at same
    · have := first k hk
      rwa [get (by omega), get (by omega)] at this

/-- Settles O21: the polynomial itself is the one through its points. -/
theorem interpolationRecoversTheConstantTerm : Obligations.InterpolationRecoversTheConstantTerm := by
  intro xs p _ distinct _ short
  have : Fact (Irreducible aesPolynomial) := ⟨aesPolynomial_irreducible⟩
  have interpolated := residue_lagrange0_of_through (by rwa [pointsOn_fst]) (through_pointsOn short)
  rw [pointsOn_fst, pointsOn_snd] at interpolated
  apply residue_injective
  calc residue (lagrange0 xs (xs.map (horner p))) = (hornerPolynomial p).eval (residue 0x00#8) := by
        rw [interpolated, residue_zero]
    _ = residue (p.getD 0 0x00#8) := by rw [hornerPolynomial_eval, horner_at_zero]

/-- Settles O22: both sides are the value at 0 of one polynomial through the points. -/
theorem interpolationDoesNotDependOnTheOrderOfPoints : Obligations.InterpolationDoesNotDependOnTheOrderOfPoints := by
  intro ps qs perm _ distinct _
  have : Fact (Irreducible aesPolynomial) := ⟨aesPolynomial_irreducible⟩
  obtain ⟨f, through⟩ := exists_through distinct
  apply residue_injective
  rw [residue_lagrange0_of_through distinct through,
    residue_lagrange0_of_through ((perm.map Prod.fst).nodup_iff.1 distinct) (through.perm perm)]

/-- Settles O29: both bytes are the Horner value of SPLIT's polynomial at position i. -/
theorem evalGivesTheByteSplitWrites : Obligations.EvalGivesTheByteSplitWrites := by
  intro s t u x i _ ready split hx hxn hi opa count coef
  rw [← splitPolysOf_getD hi] at coef
  obtain rfl := Host.Outcome.next.inj ((exec_split_ready ready).symm.trans split)
  have length := length_splitPolysOf_getD ready hi
  refine ⟨_, exec_eval u, ?_⟩
  calc horner (coefs u) u.opa = horner ((splitPolysOf s).getD i []) (BitVec.ofNat 8 x) := by
        rw [coefs_eq (count.trans length.symm) (length ▸ coef), opa]
    _ = _ := (readByte_splitWrites_payload ready hx hxn hi).symm

/-- Settles O18: EVAL has no check, so every EVAL succeeds. -/
theorem evalWritesTheHornerValue : Obligations.EvalWritesTheHornerValue := fun _ hc =>
  ⟨decode_eq_command_iff.2 hc, congrArg Host.Outcome.next (succeed_setResult (i := .eval) hc _)⟩

/-- Settles O20: INTERP0 by the outcome of its checks. -/
theorem interp0InterpolatesOrReportsItsFirstCheck : Obligations.Interp0InterpolatesOrReportsItsFirstCheck := by
  intro s hc
  have fails := @exec_interp0_fails s hc
  refine ⟨decode_eq_command_iff.2 hc, fun few => fails (code := .tooFew) (by decide) (interp0Check_of_few few),
    fun two code info check => ?_, fun two check => ?_⟩
  · have failing := (interp0Check_of_two_le two).trans check
    rcases checkIndices_code check with rfl | rfl
    · exact .inl ⟨rfl, fails (by decide) failing⟩
    · exact .inr ⟨rfl, fails (by decide) failing⟩
  · rw [exec_interp0_of_check_none ((interp0Check_of_two_le two).trans check)]
    exact congrArg Host.Outcome.next (succeed_setResult (i := .interp0) hc _)

end Sys2Proof.Machine

/-! ## Proofs of the statements about sharing (42_sharing.md)

First the laws these proofs share: how SPLIT and COMBINE end by the outcome of their checks, and what their writes read as.
Then the theorems that settle the obligations. -/

namespace Sys2Proof.Machine

/-! ### A command that succeeds (30_encoding.md rule R98) -/

theorem succeed_eq_doneWith {i : Instr} {u : State} (hc : u.cmd = encode i) : succeed u = doneWith (opcode i) u := by
  rw [← opcOf_cmd hc]
  rfl

/-! ### How SPLIT ends (42_sharing.md rules R160 and R161) -/

/-- A SPLIT whose checks fail. -/
theorem exec_split_fails {s : State} (hc : s.cmd = encode .split) {code : ErrorCode} (hne : code ≠ .ok)
    (h : splitCheck s = some code) : exec .split s = .next (failedWith 0x08#8 (errorByte code) 0x0000#16 s) := by
  rw [exec, execSplit, h]
  exact congrArg _ (raiseError_eq_failedWith hc hne _)

/-- A SPLIT whose checks pass is held, or it completes with no error code. -/
theorem exec_split_held_or_succeeds {s t : State} (h : splitCheck s = none) (e : exec .split s = .next t) :
    t = s ∨ t.status.errf = false := by
  rw [exec, execSplit, h] at e
  split_ifs at e <;> obtain rfl := Host.Outcome.next.inj e
  · exact .inl rfl
  · exact .inr rfl

/-! ### What SPLIT writes (42_sharing.md rules R162 to R164) -/

/-- Byte 0 of the share of index x is x. -/
theorem readByte_splitWrites_index {s : State} (h : SplitReady s) {x : Nat} (hx : 1 ≤ x)
    (hxn : x ≤ s.paramN.toNat) :
    readByte (splitWrites s).mem (slotAddr (x - 1) 0) = BitVec.ofNat 8 x := by
  have := length_splitPolysOf s
  rw [splitWrites_mem, readByte_writeShares_slot h.sharesFitAByte (by omega) (by omega) (by omega), shareBytes_index,
    Nat.sub_add_cancel hx]

/-- L + 1 does not wrap in 16 bits, because L ≤ LMAX ≤ 65534. -/
theorem toNat_secretLen_add_one {s : State} (h : SplitReady s) (hl : s.lmax ≤ Config.lmaxGreatest) :
    (s.secretLen + 1#16).toNat = s.secretLen.toNat + 1 := by
  have fits := h.secretFits.trans hl
  rw [Config.lmaxGreatest] at fits
  rw [BitVec.toNat_add, BitVec.toNat_ofNat]
  omega

theorem slen_splitWrites {s : State} (h : SplitReady s) {j : Nat} (hj : j < s.paramN.toNat) :
    slen (splitWrites s).mem j = s.secretLen + 1#16 := slen_writeShares h.sharesFitAByte hj

/-! ### The checks of COMBINE (42_sharing.md rules R166 and R167) -/

theorem combineCheck_of_few {s : State} (h : s.count.toNat < 2) : combineCheck s = some (.tooFew, 0x0000#16) := if_pos h

theorem combineCheck_of_mismatch {s : State} (two : 2 ≤ s.count.toNat) {j : Nat} (hj : j < s.count.toNat)
    (differs : slen s.mem j ≠ slen s.mem 0) (first : ∀ k < j, slen s.mem k = slen s.mem 0) :
    combineCheck s = some (.lenMismatch, posInfo j) := by
  have scan : (shareLens s).findIdx? (fun len => len != slen s.mem 0) = some j := by
    simpa [List.findIdx?_eq_some_iff_getElem, shareLens] using ⟨differs, hj, first⟩
  rw [combineCheck, if_neg (Nat.not_lt.2 two), scan]

/-- Past the length comparison, the checks left are those of the common length and of the indices. -/
theorem combineCheck_of_equal {s : State} (two : 2 ≤ s.count.toNat)
    (equal : ∀ j < s.count.toNat, slen s.mem j = slen s.mem 0) : combineCheck s =
      if (slen s.mem 0).toNat < 2 then some (.shareTooShort, 0x0000#16)
      else if s.lmax + 1 < (slen s.mem 0).toNat then some (.shareTooLong, 0x0000#16)
      else checkIndices (shareIndices s) := by
  have scan : (shareLens s).findIdx? (fun len => len != slen s.mem 0) = none := by
    simpa [List.findIdx?_eq_none_iff, shareLens] using equal
  rw [combineCheck, if_neg (Nat.not_lt.2 two), scan]

/-- The slot 0 length of a COMBINE whose checks pass is the common one. -/
theorem CombineReady.slen_zero {len : Half} {s : State} (h : CombineReady len s) : slen s.mem 0 = len :=
  h.lengthsEqual 0 (by have := h.atLeastTwo; omega)

theorem CombineReady.indices_nodup {len : Half} {s : State} (h : CombineReady len s) : (shareIndices s).Nodup :=
  List.pairwise_map.2 (List.pairwise_lt_range.imp_of_mem fun _ hj hlt =>
    h.indicesDistinct _ (List.mem_range.1 hj) _ hlt)

theorem CombineReady.zero_notMem_indices {len : Half} {s : State} (h : CombineReady len s) :
    0x00#8 ∉ shareIndices s := fun hm => by
  obtain ⟨j, hj, e⟩ := List.mem_map.1 hm
  exact h.indicesNonzero j (List.mem_range.1 hj) e

theorem combineCheck_of_ready {len : Half} {s : State} (h : CombineReady len s) : combineCheck s = none := by
  rw [combineCheck_of_equal h.atLeastTwo (h.slen_zero ▸ h.lengthsEqual), h.slen_zero,
    if_neg (Nat.not_lt.2 h.longEnough), if_neg (Nat.not_lt.2 h.shortEnough)]
  exact checkIndices_eq_none_iff.2 ⟨h.zero_notMem_indices, h.indices_nodup⟩

/-! ### How COMBINE ends (42_sharing.md rules R166 and R168) -/

theorem exec_combine_of_check_some {s : State} {code : ErrorCode} {info : Half} (h : combineCheck s = some (code, info)) :
    exec .combine s = .next (raiseError code info s) := by
  rw [exec, execCombine, h]

theorem exec_combine_of_check_none {s : State} (h : combineCheck s = none) :
    exec .combine s = .next (succeed (combineWrites s)) := by
  rw [exec, execCombine, h]

/-- A COMBINE whose checks fail. -/
theorem exec_combine_fails {s : State} (hc : s.cmd = encode .combine) {code : ErrorCode} {info : Half} (hne : code ≠ .ok)
    (h : combineCheck s = some (code, info)) : exec .combine s = .next (failedWith 0x09#8 (errorByte code) info s) := by
  rw [exec_combine_of_check_some h, raiseError_eq_failedWith hc hne, opcode]

/-- The recovered byte at a payload position. -/
theorem readByte_combineWrites_secret {len : Half} {s : State} (h : CombineReady len s) {i : Nat} (hi : i < len.toNat - 1) :
    readByte (combineWrites s).mem (secretAddr i) = lagrange0 (shareIndices s) (sharePayloads s i) := by
  rw [← h.slen_zero] at hi
  rw [← combinedSecret_getD hi, combineWrites_mem]
  exact readByte_writeBlock_inside s.mem (secretAddr 0) (combinedSecret s) (by rwa [length_combinedSecret])

/-- COMBINE leaves every byte outside the recovered secret alone. -/
theorem readByte_combineWrites_outside {len : Half} {s : State} (h : CombineReady len s) {a : Nat}
    (ha : a < secretAddr 0 ∨ secretAddr (len.toNat - 1) ≤ a) : readByte (combineWrites s).mem a = readByte s.mem a := by
  refine readByte_writeBlock_outside _ _ _ ?_
  rw [length_combinedSecret, h.slen_zero]
  exact ha

/-- SECRET_LEN becomes the payload length. -/
theorem combineWrites_secretLen_of_ready {len : Half} {s : State} (h : CombineReady len s) :
    (combineWrites s).secretLen = BitVec.ofNat 16 (len.toNat - 1) := by
  have long := h.longEnough
  rw [combineWrites_secretLen, h.slen_zero]
  bv_omega

/-! ### Slots that hold shares of one SPLIT (42_sharing.md rule R171) -/

/-- Slot j of u holds the share xs[j] that SPLIT of s writes, for each of the COUNT positions. -/
structure HoldsShares (s u : State) (xs : List Nat) : Prop where
  indices_nodup : xs.Nodup
  indices_range : ∀ x ∈ xs, 1 ≤ x ∧ x ≤ s.paramN.toNat
  count_eq : u.count.toNat = xs.length
  slen_eq : ∀ j < xs.length, (slen u.mem j).toNat = s.secretLen.toNat + 1
  readByte_eq : ∀ j < xs.length, ∀ b ≤ s.secretLen.toNat,
    readByte u.mem (slotAddr j b) = readByte (splitWrites s).mem (slotAddr (xs.getD j 0 - 1) b)

section Shares

variable {s u : State} {xs : List Nat} (ready : SplitReady s) (holds : HoldsShares s u xs)

include holds in
theorem HoldsShares.getD_range {j : Nat} (hj : j < xs.length) : 1 ≤ xs.getD j 0 ∧ xs.getD j 0 ≤ s.paramN.toNat := by
  rw [List.getD_eq_getElem _ _ hj]
  exact holds.indices_range _ (List.getElem_mem hj)

include ready holds in
theorem HoldsShares.index_eq {j : Nat} (hj : j < xs.length) :
    readByte u.mem (slotAddr j 0) = BitVec.ofNat 8 (xs.getD j 0) := by
  obtain ⟨least, greatest⟩ := holds.getD_range hj
  rw [holds.readByte_eq j hj 0 (Nat.zero_le _), readByte_splitWrites_index ready least greatest]

include ready holds in
/-- An index fits a byte, so distinct indices are distinct bytes and none is 0. -/
theorem HoldsShares.toNat_index {j : Nat} (hj : j < xs.length) :
    (readByte u.mem (slotAddr j 0)).toNat = xs.getD j 0 := by
  have range := holds.getD_range hj
  have fits := ready.sharesFitAByte
  rw [holds.index_eq ready hj, BitVec.toNat_ofNat]
  omega

include ready holds in
/-- Each payload byte is the value of SPLIT's polynomial at the index of its slot. -/
theorem HoldsShares.sharePayloads_eq {i : Nat} (hi : i < s.secretLen.toNat) :
    sharePayloads u i = (shareIndices u).map (horner ((splitPolysOf s).getD i [])) := by
  rw [sharePayloads, shareIndices, List.map_map]
  refine List.map_congr_left fun j hj => ?_
  rw [List.mem_range, holds.count_eq] at hj
  obtain ⟨least, greatest⟩ := holds.getD_range hj
  rw [Function.comp_apply, holds.index_eq ready hj, holds.readByte_eq j hj (1 + i) (by omega),
    readByte_splitWrites_payload ready least greatest hi]

include ready holds in
/-- K or more shares of one SPLIT pass COMBINE's checks. -/
theorem HoldsShares.combineReady (legal : s.lmax ≤ Config.lmaxGreatest) (enough : s.paramK.toNat ≤ xs.length)
    (hu : u.lmax = s.lmax) : CombineReady (s.secretLen + 1#16) u where
  atLeastTwo := by have := ready.thresholdAtLeastTwo; have := holds.count_eq; omega
  lengthsEqual j hj := BitVec.eq_of_toNat_eq <|
    (holds.slen_eq j (holds.count_eq ▸ hj)).trans (toNat_secretLen_add_one ready legal).symm
  longEnough := by have := ready.secretNonempty; rw [toNat_secretLen_add_one ready legal]; omega
  shortEnough := by have := ready.secretFits; rw [toNat_secretLen_add_one ready legal]; omega
  indicesNonzero j hj e := by
    have hj : j < xs.length := holds.count_eq ▸ hj
    have := (holds.getD_range hj).1
    have value := holds.toNat_index ready hj
    rw [e, BitVec.toNat_ofNat] at value
    omega
  indicesDistinct j hj m hm e := by
    have hj : j < xs.length := holds.count_eq ▸ hj
    have same : xs.getD m 0 = xs.getD j 0 := by
      rw [← holds.toNat_index ready (hm.trans hj), ← holds.toNat_index ready hj, e]
    rw [List.getD_eq_getElem _ _ (hm.trans hj), List.getD_eq_getElem _ _ hj, holds.indices_nodup.getElem_inj_iff] at same
    exact hm.ne same

include ready holds in
/-- The interpolation over K or more shares is the secret byte: the constant term of a polynomial of K coefficients. -/
theorem HoldsShares.lagrange0_eq (combinable : CombineReady (s.secretLen + 1#16) u)
    (enough : s.paramK.toNat ≤ xs.length) {i : Nat} (hi : i < s.secretLen.toNat) :
    lagrange0 (shareIndices u) (sharePayloads u i) = readByte s.mem (secretAddr i) := by
  have length : (shareIndices u).length = u.count.toNat := by rw [shareIndices, List.length_map, List.length_range]
  rw [holds.sharePayloads_eq ready hi, interpolationRecoversTheConstantTerm _ _ (length ▸ combinable.atLeastTwo)
    combinable.indices_nodup combinable.zero_notMem_indices
    (by rw [length_splitPolysOf_getD ready hi, length, holds.count_eq]; exact enough), splitPolysOf_getD hi,
    List.getD_cons_zero]

end Shares

/-! ### The errors of interpolation (60_exceptions.md rule R203) -/

theorem interp0Check_ne_domain {s : State} {code : ErrorCode} {info : Half} (h : interp0Check s = some (code, info)) :
    errorByte code ≠ 0x30#8 ∧ errorByte code ≠ 0x31#8 := by
  rcases interp0Check_code h with ⟨rfl, -⟩ | rfl | rfl <;> decide

theorem combineCheck_ne_domain {s : State} {code : ErrorCode} {info : Half} (h : combineCheck s = some (code, info)) :
    errorByte code ≠ 0x30#8 ∧ errorByte code ≠ 0x31#8 := by
  rcases combineCheck_code h with ⟨rfl | rfl | rfl, -⟩ | rfl | rfl | rfl <;> decide

theorem exec_interp0_err_ne_domain {s t : State} (h : exec .interp0 s = .next t) :
    t.status.err ≠ 0x30#8 ∧ t.status.err ≠ 0x31#8 := by
  cases check : interp0Check s with
  | none =>
    obtain rfl := Host.Outcome.next.inj ((exec_interp0_of_check_none check).symm.trans h)
    exact (by decide : errorByte .ok ≠ 0x30#8 ∧ errorByte .ok ≠ 0x31#8)
  | some reported =>
    obtain rfl := Host.Outcome.next.inj ((exec_interp0_of_check_some check).symm.trans h)
    exact interp0Check_ne_domain check

theorem exec_combine_err_ne_domain {s t : State} (h : exec .combine s = .next t) :
    t.status.err ≠ 0x30#8 ∧ t.status.err ≠ 0x31#8 := by
  cases check : combineCheck s with
  | none =>
    obtain rfl := Host.Outcome.next.inj ((exec_combine_of_check_none check).symm.trans h)
    exact (by decide : errorByte .ok ≠ 0x30#8 ∧ errorByte .ok ≠ 0x31#8)
  | some reported =>
    obtain rfl := Host.Outcome.next.inj ((exec_combine_of_check_some check).symm.trans h)
    exact combineCheck_ne_domain check

theorem gsub_eq_zero_iff {a b : Byte} : gsub a b = 0x00#8 ↔ a = b := BitVec.xor_eq_zero_iff

/-! ### The obligations -/

/-- Settles O23: SPLIT's own writes are the memory, byte by byte. -/
theorem splitWritesEveryShareAndNothingElse : Obligations.SplitWritesEveryShareAndNothingElse := by
  intro s hc legal ready
  refine ⟨decode_eq_command_iff.2 hc, (splitWrites s).mem, ?_, fun x hx hxn => ⟨?_, ?_, fun i hi => ?_⟩,
    fun a outside => ?_⟩
  · rw [exec_split_ready ready]
    exact congrArg _ (succeed_eq_doneWith (i := .split) (u := splitWrites s) hc)
  · exact readByte_splitWrites_index ready hx hxn
  · rw [slen_splitWrites ready (by omega), toNat_secretLen_add_one ready legal]
  · rw [readByte_splitWrites_payload ready hx hxn hi, splitPolysOf_getD hi]
  · refine readByte_writeShares_outside fun j hj => ?_
    obtain ⟨slot, low, high⟩ := outside (j + 1) (by omega) hj
    refine ⟨?_, low, high⟩
    rw [length_splitPolysOf]
    simp only [Nat.add_sub_cancel, slotAddr] at slot ⊢
    omega

/-- Settles O24: check by check, and a SPLIT past all of them is held or succeeds. -/
theorem splitReportsItsFirstFailingCheck : Obligations.SplitReportsItsFirstFailingCheck := by
  intro s hc
  have fails {code : ErrorCode} := exec_split_fails (s := s) hc (code := code)
  refine ⟨fun empty => fails (code := .splitEmpty) (by decide) ?_,
    fun l k => fails (code := .splitKLt2) (by decide) ?_,
    fun l k n => fails (code := .splitNLtK) (by decide) ?_,
    fun l k n n255 => fails (code := .splitNGt255) (by decide) ?_,
    fun l k n n255 long => fails (code := .splitTooLong) (by decide) ?_,
    fun l k n n255 fits busy code info t h e => ?_⟩
  · rw [splitCheck, if_pos empty]
  · rw [splitCheck, if_neg l, if_pos k]
  · rw [splitCheck, if_neg l, if_neg (by omega), if_pos n]
  · rw [splitCheck, if_neg l, if_neg (by omega), if_neg (by omega), if_pos n255]
  · rw [splitCheck, if_neg l, if_neg (by omega), if_neg (by omega), if_neg (by omega), if_pos long]
  · rcases exec_split_held_or_succeeds (splitCheck_none.2 ⟨by omega, k, n, n255, fits⟩) h with rfl | ok
    · rw [e] at busy
      cases busy
    · rw [e] at ok
      cases ok

/-- Settles O26. -/
theorem combineRecoversEveryPayloadPosition : Obligations.CombineRecoversEveryPayloadPosition := by
  intro s len hc ready
  refine ⟨decode_eq_command_iff.2 hc, (combineWrites s).mem, ?_, fun i hi => readByte_combineWrites_secret ready hi,
    fun a ha => readByte_combineWrites_outside ready ha⟩
  rw [exec_combine_of_check_none (combineCheck_of_ready ready), ← combineWrites_secretLen_of_ready ready]
  exact congrArg _ (succeed_eq_doneWith (i := .combine) (u := combineWrites s) hc)

/-- Settles O27: check by check, the last of them by what check_indices reports. -/
theorem combineReportsItsFirstFailingCheck : Obligations.CombineReportsItsFirstFailingCheck := by
  intro s hc
  have fails {code : ErrorCode} {info : Half} := exec_combine_fails (s := s) hc (code := code) (info := info)
  refine ⟨fun few => fails (code := .tooFew) (by decide) (combineCheck_of_few few), fun two j hj differs first => ?_,
    fun two equal => ⟨fun short => ?_, fun payload long => ?_, fun payload fits code info e => ?_⟩⟩
  · rw [← posInfo_eq_ofNat (by omega)]
    exact fails (code := .lenMismatch) (by decide) (combineCheck_of_mismatch two hj differs first)
  · exact fails (code := .shareTooShort) (by decide) (by rw [combineCheck_of_equal two equal, if_pos short])
  · exact fails (code := .shareTooLong) (by decide)
      (by rw [combineCheck_of_equal two equal, if_neg (by omega), if_pos long])
  · have failing : combineCheck s = some (code, info) := by
      rw [combineCheck_of_equal two equal, if_neg (by omega), if_neg (by omega)]
      exact e
    rcases checkIndices_code e with rfl | rfl
    · exact .inl ⟨rfl, fails (by decide) failing⟩
    · exact .inr ⟨rfl, fails (by decide) failing⟩

/-- Settles O30: any K or more of SPLIT's shares interpolate, at each position, to the constant term of its polynomial. -/
theorem combineOfAnyKSharesRecoversTheSecret : Obligations.CombineOfAnyKSharesRecoversTheSecret := by
  intro s legal ready
  refine ⟨_, exec_split_ready ready, fun xs u distinct range enough count hu slots => ?_⟩
  have holds : HoldsShares s u xs := ⟨distinct, range, count, fun j hj => (slots j hj).1, fun j hj => (slots j hj).2⟩
  have combinable := holds.combineReady ready legal enough hu
  have length := toNat_secretLen_add_one ready legal
  refine ⟨_, exec_combine_of_check_none (combineCheck_of_ready combinable), rfl, ?_, fun i hi => ?_⟩
  · rw [succeed_eq, finish_secretLen, combineWrites_secretLen, combinable.slen_zero, BitVec.add_sub_cancel]
  · rw [succeed_eq, finish_mem, readByte_combineWrites_secret combinable (by omega),
      holds.lagrange0_eq ready combinable enough hi]

/-- Settles O33: no code of their checks is a domain error, and distinct indices have a nonzero difference. -/
theorem interpolationRaisesNoDomainError : Obligations.InterpolationRaisesNoDomainError := by
  refine ⟨fun s t h => h.elim exec_interp0_err_ne_domain exec_combine_err_ne_domain,
    fun xs check j m hj hm hne e => hne ?_⟩
  rwa [gsub_eq_zero_iff, List.getD_eq_getElem _ _ hj, List.getD_eq_getElem _ _ hm,
    (checkIndices_eq_none_iff.1 check).2.getElem_inj_iff] at e

/-- Settles O28: the memory that lists no cell. -/
theorem zeroizeClearsBuffersAndOperands : Obligations.ZeroizeClearsBuffersAndOperands := fun s hc =>
  ⟨decode_eq_command_iff.2 hc, [],
    congrArg Host.Outcome.next (succeed_eq_doneWith (i := .zeroize) (u := zeroizeWrites s) hc), readByte_nil⟩

end Sys2Proof.Machine

/-! ## Proofs of the statements about errors and the start of a command (60_exceptions.md)

First the laws these proofs share: the check by which a command fails, and what a step that leaves IDLE can be. Then the
theorems that settle the obligations. -/

namespace Sys2Proof.Machine

/-! ### The check by which a command fails (60_exceptions.md rules R201 and R204) -/

/-- The error with which a command ends on a state, if its checks fail there. -/
def failure (i : Instr) (s : State) : Option (ErrorCode × Half) :=
  match i with
  | .div => if s.opb = 0x00#8 then some (.divZero, 0x0000#16) else none
  | .inv => if s.opa = 0x00#8 then some (.invZero, 0x0000#16) else none
  | .interp0 => interp0Check s
  | .split => (splitCheck s).map fun code => (code, 0x0000#16)
  | .combine => combineCheck s
  | .add | .sub | .mul | .eval | .zeroize => none

/-- No check reads the random-byte port. -/
theorem failure_port (i : Instr) (s : State) (bytes : List Byte) : failure i { s with port := bytes } = failure i s := by
  cases i <;> rfl

/-- A command whose check fails ends with that error and writes nothing else. -/
theorem exec_of_failure_some {i : Instr} {s : State} {code : ErrorCode} {info : Half}
    (h : failure i s = some (code, info)) : exec i s = .next (finish code info s) := by
  cases i with
  | add | sub | mul | eval | zeroize => cases h
  | div =>
    obtain ⟨zero, e⟩ := Option.ite_none_right_eq_some.1 h
    cases e
    exact if_pos zero
  | inv =>
    obtain ⟨zero, e⟩ := Option.ite_none_right_eq_some.1 h
    cases e
    exact if_pos zero
  | interp0 => exact exec_interp0_of_check_some h
  | split =>
    obtain ⟨_, check, e⟩ := Option.map_eq_some_iff.1 h
    cases e
    rw [exec, execSplit, check]
    rfl
  | combine => exact exec_combine_of_check_some h

/-- A command whose checks pass is held for its draws or ends without an error. -/
theorem exec_of_failure_none {i : Instr} {s t : State} (h : failure i s = none) (e : exec i s = .next t) :
    t = s ∨ t.status.errf = false := by
  cases i with
  | add | sub | mul | eval | zeroize => cases e; exact .inr rfl
  | div =>
    have nonzero : s.opb ≠ 0x00#8 := by simpa [failure] using h
    rw [exec, execDiv, if_neg nonzero] at e
    cases e
    exact .inr rfl
  | inv =>
    have nonzero : s.opa ≠ 0x00#8 := by simpa [failure] using h
    rw [exec, execInv, if_neg nonzero] at e
    cases e
    exact .inr rfl
  | interp0 =>
    rw [exec_interp0_of_check_none h] at e
    cases e
    exact .inr rfl
  | split => exact exec_split_held_or_succeeds (Option.map_eq_none_iff.1 h) e
  | combine =>
    rw [exec_combine_of_check_none h] at e
    cases e
    exact .inr rfl

/-- A command that takes a BUSY unit to IDLE with ERRF = 1 is one whose check failed. -/
theorem failure_of_error {i : Instr} {s t : State} (hp : s.phase = .busy) (h : exec i s = .next t) (hi : t.phase = .idle)
    (he : t.status.errf = true) : ∃ code info, failure i s = some (code, info) ∧ t = finish code info s := by
  cases hf : failure i s with
  | some reported =>
    rw [exec_of_failure_some hf] at h
    exact ⟨_, _, rfl, (Host.Outcome.next.inj h).symm⟩
  | none =>
    rcases exec_of_failure_none hf h with rfl | ok
    · simp [hp] at hi
    · simp [ok] at he

/-! ### The step that leaves IDLE (30_encoding.md rule R96, 60_exceptions.md rule R225) -/

/-- The host after its line `W32 0x0C, w` was answered OK: the word is accepted, the write noted and the line left. -/
def afterCmdWrite (w : Word) (s : State) : State := nextLine (noteTxn (.write 4 0x0C#32 w) .ok (accept w s))

theorem hostLine_starts {op : HostOp} {s t : State} (hp : s.phase = .idle) (h : hostLine op s = .next t)
    (hb : t.phase = .busy) : ∃ v, op = .write 4 0x0C#32 v ∧ t = afterCmdWrite (hostVal s.host.vars v) s := by
  obtain ⟨-, hu | ⟨off, n, v, rfl, hu⟩⟩ := hostLine_cases h
  · rw [phase_eq_of_unitPart_eq hu, hp] at hb
    cases hb
  · rw [phase_eq_of_unitPart_eq hu] at hb
    obtain ⟨hoff, rfl, accepted⟩ := memWrite_starts hp hb
    obtain rfl : off = 0x0C#32 := BitVec.eq_of_toNat_eq hoff
    obtain rfl := Host.Outcome.next.inj h
    refine ⟨v, rfl, ?_⟩
    rw [hostWrite_ok (congrArg Prod.fst accepted), accepted, afterCmdWrite]

theorem hostStep_starts {s t : State} (hp : s.phase = .idle) (h : hostStep s = .next t) (hb : t.phase = .busy) :
    s.host.outcome = .running ∧ ∃ v, s.host.program[s.host.line]? = some (.write 4 0x0C#32 v) ∧
      t = afterCmdWrite (hostVal s.host.vars v) s := by
  have quiet (e : hostStep s = .next s) : False := by
    obtain rfl := Host.Outcome.next.inj (e.symm.trans h)
    simp [hp] at hb
  cases ho : s.host.outcome with
  | running =>
    cases hl : s.host.program[s.host.line]? with
    | none => exact (quiet (hostStep_pastEnd ho hl)).elim
    | some op =>
      rw [hostStep_line ho hl] at h
      obtain ⟨v, rfl, ht⟩ := hostLine_starts hp h hb
      exact ⟨rfl, v, rfl, ht⟩
  | halted => exact (quiet (hostStep_stopped (.inl ho))).elim
  | buserr => exact (quiet (hostStep_stopped (.inr ho))).elim

/-- Of the four agents only the host starts a command. -/
theorem moveStep_starts {mv : Move} {s t : State} (hp : s.phase = .idle) (h : moveStep mv s = .next t)
    (hb : t.phase = .busy) : mv = .host := by
  cases mv with
  | host => rfl
  | engine =>
    obtain rfl := Host.Outcome.next.inj ((engineStep_idle hp).symm.trans h)
    simp [hp] at hb
  | rst =>
    obtain rfl := Host.Outcome.next.inj h
    simp at hb
  | rng b =>
    obtain rfl := Host.Outcome.next.inj h
    simp [hp] at hb

/-- When the host moves it is first in the schedule, or nothing is scheduled and a free move, if it is one, is its own. -/
theorem schedule_of_mover_host {s : State} (h : mover s = .host) :
    (s.schedule = [] ∧ (s.order = .free → Config.freeMove s.freeMoves = .host)) ∨
      ∃ rest, s.schedule = .host :: rest := by
  cases hs : s.schedule with
  | nil =>
    refine .inl ⟨rfl, fun ho => ?_⟩
    rw [mover_unscheduled hs, defaultMove, ho] at h
    exact h
  | cons mv rest =>
    obtain rfl : mv = .host := (mover_scheduled hs).symm.trans h
    exact .inr ⟨rest, rfl⟩

/-! ### The obligations -/

/-- Settles O31: a command that ends with an error is one whose check failed, and that one writes what Finish writes. -/
theorem aFailedCommandWritesOnlyStatusAndErrInfo : Obligations.AFailedCommandWritesOnlyStatusAndErrInfo := by
  intro i s t hp h hi he
  obtain ⟨code, info, -, rfl⟩ := failure_of_error hp h hi he
  rfl

/-- Settles O32: the check that failed reads no byte of the port, so it fails alike with any others. -/
theorem anErrorDoesNotDependOnTheDraws : Obligations.AnErrorDoesNotDependOnTheDraws := by
  intro i s t bytes hp h hi he
  obtain ⟨code, info, failed, rfl⟩ := failure_of_error hp h hi he
  exact exec_of_failure_some ((failure_port i s bytes).trans failed)

/-- Settles O47: only the host's move leaves IDLE, and of its lines only the accepted write to CMD. -/
theorem onlyACmdWriteStartsACommand : Obligations.OnlyACmdWriteStartsACommand := by
  intro s t hp h hb
  have moved : mover s = .host := moveStep_starts (s := takeTurn s) hp h hb
  rw [step, moved] at h
  obtain ⟨running, v, line, rfl⟩ := hostStep_starts (s := takeTurn s) hp h hb
  exact ⟨schedule_of_mover_host moved, running, v, line, rfl, rfl⟩

end Sys2Proof.Machine

/-! ## Proofs of the statements about reset and hazards (70_reset_and_hazards.md)

First the laws these proofs share: a bus write to CTRL in either phase, a scheduled reset, a unit in reset, and a SPLIT that
waits for its draws. Then the theorems that settle the obligations. -/

namespace Sys2Proof.Machine

/-! ### Bus writes and the gate (70_reset_and_hazards.md rules R241 and R250) -/

/-- While BUSY the bus refuses every write but the 4-byte write to CTRL, misplaced or gated. -/
theorem memWrite_busy_refused {s : State} (hp : s.phase = .busy) {off n : Nat} (h : ¬(off = 0x04 ∧ n = 4)) (v : Word) :
    memWrite off n v s = (.busError, s) := by
  cases hw : wellPlaced s.lmax off n with
  | false => simp [memWrite, hw]
  | true =>
    have gated : writeGated off s = true := (writeGated_iff hw).2 ⟨hp, h⟩
    rw [memWrite, if_pos hw, if_pos gated]

/-- The 4-byte write to CTRL passes the gate in either phase. -/
theorem memWrite_ctrl (v : Word) (s : State) : memWrite 0x04 4 v s = (.ok, writeCtrl v s) := by
  have placed : wellPlaced s.lmax 0x04 4 = true := wellPlaced_regs (by decide) rfl
  have passes : ¬writeGated 0x04 s = true := fun gated => ((writeGated_iff placed).1 gated).2 ⟨rfl, rfl⟩
  rw [memWrite, if_pos placed, if_neg passes, if_pos (regionOf_regs (by decide))]
  rfl

theorem memWrite_ctrl_softReset {v : Word} (hv : v.getLsbD 1 = true) (s : State) :
    memWrite 0x04 4 v s = (.ok, resetUnit s) := by
  rw [memWrite_ctrl, writeCtrl, if_pos hv]

theorem memWrite_ctrl_irqEn {v : Word} (hv : v.getLsbD 1 = false) (s : State) :
    memWrite 0x04 4 v s = (.ok, { s with irqEn := v.getLsbD 0 }) := by
  rw [memWrite_ctrl, writeCtrl, if_neg (Bool.eq_false_iff.1 hv)]

/-! ### A scheduled reset and the unit it leaves (70_reset_and_hazards.md rules R240, R242 and R244) -/

theorem step_scheduled_rst {s : State} {rest : List Move} (hsch : s.schedule = .rst :: rest) :
    step s = .next (resetUnit { s with schedule := rest }) := step_scheduled hsch

theorem memRead_ctrl_resetUnit (s : State) : memRead 0x04 4 (resetUnit s) = (.data 0x00000000#32, resetUnit s) := by
  have ctrl : readReg (resetUnit s) (regAt 0x04) = 0x00000000#32 := (rfl : ctrlWord false = 0x00000000#32)
  rw [memRead_register (resetUnit_phase s) (by decide) rfl, ctrl]

/-- While IDLE the engine's scheduled move only leaves the schedule. -/
theorem step_scheduled_engine_idle {s : State} {rest : List Move} (hsch : s.schedule = .engine :: rest)
    (hp : s.phase = .idle) : step s = .next { s with schedule := rest } := by
  rw [step_scheduled hsch]
  exact engineStep_idle hp

/-- SPLIT asks a unit in reset for no draws, its secret being empty. -/
theorem splitDraws_resetUnit (w : Word) (s : State) : splitDraws (accept w (resetUnit s)) = 0 := by simp [splitDraws]

/-- A command accepted in reset completes: none is held. -/
theorem exec_accept_resetUnit (i : Instr) (w : Word) (s : State) :
    ∃ t, exec i (accept w (resetUnit s)) = .next t ∧ t.phase = .idle := by
  obtain ⟨t, ht⟩ := exec_next i (accept w (resetUnit s))
  obtain ⟨code, info, u, rfl, -⟩ := exec_finish ht fun ⟨_, _, missing⟩ => by simp [splitDraws_resetUnit] at missing
  exact ⟨_, ht, rfl⟩

/-! ### A SPLIT that waits for its draws (70_reset_and_hazards.md rule R252) -/

/-- The completion step of a held SPLIT does nothing. -/
theorem completionStep_held {s : State} (hh : engineHeld s = true) : completionStep s = .next s := by
  obtain ⟨hd, checked, missing⟩ := engineHeld_iff.1 hh
  rw [completionStep_command hd, exec, execSplit, checked]
  exact if_pos missing

/-- Whichever agent moves, a held SPLIT stays as it is, but for IRQ_EN, or a reset ends it. -/
theorem step_held {s t : State} (hp : s.phase = .busy) (hh : engineHeld s = true) (h : step s = .next t) :
    unitPart t = unitPart { s with irqEn := t.irqEn } ∨ unitPart t = unitPart (resetUnit s) := by
  obtain ⟨hd, -⟩ := engineHeld_iff.1 hh
  rcases step_cases h with hu | ⟨-, i, hi, he⟩ | ⟨-, ⟨why, hi⟩, -⟩ | rfl | ⟨off, n, v, hu⟩
  · exact .inl (unitPart_keeps_irqEn hu)
  · have idles : exec i (takeTurn s) = .next (takeTurn s) :=
      (completionStep_command (s := takeTurn s) hi).symm.trans (completionStep_held (s := takeTurn s) hh)
    obtain rfl := Host.Outcome.next.inj (idles.symm.trans he)
    exact .inl rfl
  · cases hd.symm.trans hi
  · exact .inr rfl
  · exact unitPart_memWrite_busy (s := takeTurn s) hp hu

/-! ### The obligations -/

/-- Settles O25: such a SPLIT is held, so the engine's move does nothing and no other agent's completes it. -/
theorem splitIsHeldWhileItsDrawsAreMissing : Obligations.SplitIsHeldWhileItsDrawsAreMissing := by
  intro s rest hp hc nonempty fits two enough byte missing
  have hd : decode s.cmd = .command .split := by rw [hc]; rfl
  have held : engineHeld s = true := engineHeld_iff.2 ⟨hd, splitCheck_none.2 ⟨nonempty, two, enough, byte, fits⟩, missing⟩
  refine ⟨?_, ⟨_, step_scheduled_rst rfl, rfl, rfl⟩, fun t h => (step_held hp held h).imp_left fun e => ⟨?_, e⟩⟩
  · exact (step_scheduled_engine (s := { s with schedule := .engine :: rest }) rfl hp).trans
      (completionStep_held (s := { s with schedule := rest }) held)
  · rw [phase_eq_of_unitPart_eq e, ← hp]

/-- Settles O39: the gate refuses every other write, and the write to CTRL passes it. -/
theorem whileBusyOnlyCtrlCanBeWritten : Obligations.WhileBusyOnlyCtrlCanBeWritten := fun s _ _ v hp =>
  ⟨fun h => memWrite_busy_refused hp h v, fun hv => memWrite_ctrl_irqEn hv s, fun hv => memWrite_ctrl_softReset hv s⟩

/-- Settles O51: the step is `resetUnit`, whose memory lists no byte. -/
theorem hardResetPutsTheUnitAtItsResetValues : Obligations.HardResetPutsTheUnitAtItsResetValues := fun _ _ hsch =>
  ⟨_, step_scheduled_rst hsch, rfl, readByte_nil, rfl⟩

/-- Settles O52: both resets are `resetUnit`, and after it CTRL is read exactly. -/
theorem softResetIsAHardReset : Obligations.SoftResetIsAHardReset := fun s _ _ =>
  ⟨fun hv => ⟨_, memWrite_ctrl_softReset hv _, step_scheduled_rst rfl, memRead_ctrl_resetUnit _⟩,
    fun hv => memWrite_ctrl_irqEn hv s⟩

/-- Settles O53: the reset leaves the unit IDLE, where the engine's move does nothing. -/
theorem aResetWhileBusyEndsTheCommandUnreported : Obligations.AResetWhileBusyEndsTheCommandUnreported := fun _ _ _ =>
  ⟨_, step_scheduled_rst rfl, rfl, rfl, rfl, rfl, step_scheduled_engine_idle rfl rfl⟩

/-- Settles O55: COMBINE fails on COUNT 0, SPLIT on the empty secret and INV on its zero operand; MUL gives 0 * 0. -/
theorem everyCommandHasDefinedInputsAfterReset : Obligations.EveryCommandHasDefinedInputsAfterReset := by
  intro s
  have combineFails : failure .combine (resetUnit s) = some (.tooFew, 0x0000#16) := rfl
  have splitFails : failure .split (resetUnit s) = some (.splitEmpty, 0x0000#16) := rfl
  have invFails : failure .inv (resetUnit s) = some (.invZero, 0x0000#16) := rfl
  exact ⟨fun i => exec_accept_resetUnit i _ s, ⟨_, exec_of_failure_some combineFails, rfl⟩,
    ⟨_, exec_of_failure_some splitFails, rfl⟩, ⟨_, exec_of_failure_some invFails, rfl⟩, ⟨_, rfl, rfl, zero_gmul _⟩⟩

end Sys2Proof.Machine
